-- ==== Sys2Proof/Word.lean ====
section
/-! DEFINITION. The bit-vector types the HDDU's spec gives widths for (00_scope.md R12). -/

namespace Sys2Proof

/-- `cmd_word`, 32 bits (30_encoding.md R60). -/
abbrev CommandWord := BitVec 32

/-- The K operand `cmd_k`, 64 bits (30_encoding.md R67). -/
abbrev KOperand := BitVec 64

/-- A DAC value, 10 bits (00_scope.md R12). -/
abbrev Dac := BitVec 10

/-- A 6-bit quantity: a message id, an FI, a route code, a sub-type index, a text character (00_scope.md R12). -/
abbrev Six := BitVec 6

end Sys2Proof
end

