-- ==== Sys2Proof/Config.lean ====
section
/-! DEFINITION. The constants that are fixed when the block is built (00_scope.md R5 to R10, 10_state.md R39). -/

namespace Sys2Proof

/-- The identity string of the specified block (00_scope.md R1). -/
def identity : String := "HDDU-AIS-v7"

/-- One entry of a sub-type table: a pair (dac, fi) (00_scope.md R6, R7). -/
abbrev SubType := Dac × Six

/-- The implementation parameters, with the spec's defaults where it gives one. `sub6` and `sub8` are OPEN
(92_eei_decisions.md D16): a statement about the machine is over every value of them. LAT (R11) is no field: it is
fixed at 1, which is what one step of the machine is. -/
structure Config where
  /-- CC_W, the width of `char_count` (R5). -/
  ccW : Nat := 10
  /-- SUB6, the known sub-types of message id 6, in order (R6). -/
  sub6 : List SubType
  /-- SUB8, the known sub-types of message id 8, in order (R7). -/
  sub8 : List SubType
  /-- DACFI_OFF_6, the bit offset of DAC in a message-6 payload (R8, 90_conflicts.md C2). -/
  dacfiOff6 : Nat := 72
  /-- DACFI_OFF_8, the bit offset of DAC in a message-8 payload (R9). -/
  dacfiOff8 : Nat := 40
  /-- PAD_CODE, the 6-bit code of the text padding character (R10). -/
  padCode : Six := 0
  deriving DecidableEq, Repr

/-- The spec's example instance of the OPEN tables, every other parameter at its default (95_test_vectors.md,
Conventions). DESIGN CHOICE (log 3): `State.reset` holds it, since a state must hold some instance. -/
def Config.exampleInstance : Config :=
  { sub6 := [], sub8 := [(1, 26)] }

/-- What the 13 `pb_off` lines show for a read whose offset needs more than 13 bits. The spec gives them no value (log 19): a
free value, nothing is known of it. It reaches no register. -/
opaque Config.pbOffPastWidth : Nat → BitVec 13

end Sys2Proof
end

