-- ==== Sys2Proof/Syntax.lean ====
section
/-! DEFINITION. Commands as they are presented, the decoded instructions (one constructor per row of
spec/opcode_table.json), and the assembler's lines (30_encoding.md). -/

namespace Sys2Proof

/-- A command as presented on the command port: `cmd_word` and `cmd_k` (30_encoding.md R60). -/
structure Command where
  word : CommandWord
  k : KOperand
  deriving DecidableEq, Repr

/-- The decoded commands. Every field is of its encoded width, so every term is encodable. `sx`, `off` and `wm1` are
`cmd_word[23]`, `cmd_word[17:6]` and `cmd_word[5:0]` (R64 to R66); a kind that uses the K operand carries the part of
it that it uses (R67): all 64 bits for EQ, GE, GT, SABS and SPECIAL, `K[11:0]` and `K[12]` for FLAG. -/
inductive Instr where
  /-- no operation (43_control.md R120) -/
  | nop
  /-- header extractor (40_header.md R80) -/
  | hdr
  /-- message-type dispatcher (41_dispatch.md R85) -/
  | disp
  /-- plain read (42_field_validate.md R101) -/
  | fvalNone (sx : Bool) (off : BitVec 12) (wm1 : Six)
  /-- all-ones sentinel (R102) -/
  | fvalAllOnes (sx : Bool) (off : BitVec 12) (wm1 : Six)
  /-- one sentinel code (R103) -/
  | fvalEq (sx : Bool) (off : BitVec 12) (wm1 : Six) (k : KOperand)
  /-- missing at or above a bound (R104) -/
  | fvalGe (sx : Bool) (off : BitVec 12) (wm1 : Six) (k : KOperand)
  /-- missing above a bound (R105) -/
  | fvalGt (sx : Bool) (off : BitVec 12) (wm1 : Six) (k : KOperand)
  /-- missing when the signed absolute value exceeds a bound (R106) -/
  | fvalSabs (sx : Bool) (off : BitVec 12) (wm1 : Six) (k : KOperand)
  /-- never missing, special at or above a bound (R107) -/
  | fvalSpecial (sx : Bool) (off : BitVec 12) (wm1 : Six) (k : KOperand)
  /-- missing when a flag bit has the given polarity (R108) -/
  | fvalFlag (sx : Bool) (off : BitVec 12) (wm1 : Six) (foff : BitVec 12) (pol : Bool)
  /-- text of `wm1 + 1` characters, missing when all are padding (R109) -/
  | fvalText (sx : Bool) (off : BitVec 12) (wm1 : Six)
  deriving DecidableEq, Repr

/-- The mnemonic of an instruction's row in spec/opcode_table.json. -/
def Instr.mnemonic : Instr → String
  | .nop => "NOP"
  | .hdr => "HDR"
  | .disp => "DISP"
  | .fvalNone _ _ _ => "FVAL.NONE"
  | .fvalAllOnes _ _ _ => "FVAL.ALLONES"
  | .fvalEq _ _ _ _ => "FVAL.EQ"
  | .fvalGe _ _ _ _ => "FVAL.GE"
  | .fvalGt _ _ _ _ => "FVAL.GT"
  | .fvalSabs _ _ _ _ => "FVAL.SABS"
  | .fvalSpecial _ _ _ _ => "FVAL.SPECIAL"
  | .fvalFlag _ _ _ _ _ => "FVAL.FLAG"
  | .fvalText _ _ _ => "FVAL.TEXT"

/-- One row of spec/opcode_table.json: a word is of the row when `word & mask = match`. -/
structure OpcodeRow where
  mnemonic : String
  matchBits : CommandWord
  mask : CommandWord
  deriving DecidableEq, Repr

/-- The kinds that the assembler writes `FVAL.<KIND>[.S] off, w[, k]` (30_encoding.md R71). -/
inductive FieldKind where
  | none | allOnes | eq | ge | gt | sabs | special
  deriving DecidableEq, Repr

/-- One line of the assembler, as abstract syntax (30_encoding.md R71; the last four are the pseudo-commands of R72).
`signed` is the suffix `.S`; operands are the numbers as written, before any range check. -/
inductive AsmLine where
  | nop
  | hdr
  | disp
  | fval (kind : FieldKind) (signed : Bool) (off w : Nat) (k : Option Nat)
  | flag (signed : Bool) (off w foff pol : Nat)
  | text (off n : Nat)
  | word (cw : Nat) (k : Option Nat)
  | pseudoDecode
  | pseudoRaw (off w : Nat)
  | pseudoNa (off w : Nat)
  | pseudoSraw (off w : Nat)
  deriving DecidableEq, Repr

end Sys2Proof
end

