-- ==== Sys2Proof/Machine/State.lean ====
section
/-! DEFINITION. The machine's state as plain data: configuration, registers, input pins (10_state.md). -/

namespace Sys2Proof.Machine

/-- The status codes by name (60_exceptions.md R130). -/
inductive Status where
  | ok | unknownType | unknownSubtype | unsupportedType | insufficientBits | badNmeaChar | padRange | noHeader | illegalCmd
  deriving DecidableEq, Repr

/-- The route codes by name (41_dispatch.md R86). -/
inductive Route where
  | none | posA | baseUtc | staticVoyage | bin6Common | bin6Sub | binAck | bin8Common | bin8Sub | sar | utcInq | addrText
  | bcastText | unsupported | assign | dgnss | classB | dlm | aton | chanMgmt | groupAssign | static24 | binSingleSlot
  | binMultiSlot | longRange | unknown
  deriving DecidableEq, Repr

/-- The payload bits of the external Bit Extractor's buffer (10_state.md R38, 20_memory.md R45): (bit index, bit) pairs.
The canonical form is `PayloadBits.wf`. -/
abbrev PayloadBits := List (Nat × Bool)

/-- What a bit index that is not listed reads as. DESIGN CHOICE (log 1): it makes every payload writable as a finite
list; the HDDU reads no bit at or past U, so no result depends on a bit the payload does not have. -/
def PayloadBits.unlisted : Bool := false

/-- The canonical form: bit indices strictly rising, no entry equal to what an unlisted index reads as. -/
def PayloadBits.wf (m : PayloadBits) : Bool :=
  decide ((m.map Prod.fst).Pairwise (· < ·)) && m.all (fun c => c.2 != PayloadBits.unlisted)

/-- The inputs that describe the current BitPayload (10_state.md R37, R38). `charCount` is the number on the
`CC_W`-bit input (log 8). -/
structure Payload where
  charCount : Nat
  padBits : BitVec 3
  armorErr : Bool
  bits : PayloadBits
  deriving DecidableEq, Repr

/-- A payload the inputs can carry: `charCount` fits its `CC_W` bits (00_scope.md R5), the bits are in canonical form
and exist, that is, lie below `char_count*6` (20_memory.md R45). -/
def Payload.wf (ccW : Nat) (p : Payload) : Bool :=
  decide (p.charCount < 2 ^ ccW) && p.bits.wf && p.bits.all (fun c => decide (c.1 < p.charCount * 6))

/-- What the host drives at one rising edge of `clk` (10_state.md R22). -/
structure Pins where
  rst : Bool
  cmdValid : Bool
  cmd : Command
  payload : Payload
  deriving DecidableEq, Repr

/-- The result and status registers (10_state.md R23 to R36): all the state the HDDU has. -/
structure Regs where
  /-- STATUS (R23) -/
  status : BitVec 4
  /-- RSP_VALID (R24) -/
  rspValid : Bool
  /-- HV, header valid (R25) -/
  hv : Bool
  /-- MSG_ID (R26) -/
  msgId : Six
  /-- REPEAT (R27) -/
  repeatInd : BitVec 2
  /-- MMSI (R28) -/
  mmsi : BitVec 30
  /-- DV, dispatch valid (R29) -/
  dv : Bool
  /-- ROUTE (R30) -/
  route : Six
  /-- SUBIDX (R31) -/
  subidx : Six
  /-- DAC (R32) -/
  dac : Dac
  /-- FI (R33) -/
  fi : Six
  /-- FVALUE (R34) -/
  fvalue : BitVec 64
  /-- FMISS (R35) -/
  fmiss : Bool
  /-- FSPEC (R36) -/
  fspec : Bool
  deriving DecidableEq, Repr

/-- The machine: its registers, its constant configuration (R39), what the host drives at the coming rising edge
(`pins`) and at the edges after it (`later`, the model's own field, log 2). -/
structure State where
  cfg : Config
  regs : Regs
  pins : Pins
  later : List Pins
  deriving DecidableEq, Repr

/-- No fault exists: the HDDU never traps or halts (60_exceptions.md R134); every error is a code in STATUS, in a next
state (log 13). -/
inductive Fault
  deriving DecidableEq, Repr

/-- The refusals. -/
inductive Refusal where
  /-- An instruction that has no meaning in the model. Raised by an arm of `exec` that rejects its instruction by name;
  safe. No arm does: every row of the opcode table has its meaning. -/
  | notModelled (mnemonic : String)
  deriving DecidableEq, Repr

/-- The reset values of the registers (70_reset_and_hazards.md R151). -/
def Regs.reset : Regs :=
  { status := 0x0, rspValid := false, hv := false, msgId := 0, repeatInd := 0, mmsi := 0, dv := false, route := 0x00,
    subidx := 0, dac := 0, fi := 0, fvalue := 0, fmiss := false, fspec := false }

/-- Inputs at rest: no reset, no command, an empty payload. DESIGN CHOICE (log 4): the spec gives the inputs no value
at reset. -/
def Pins.rest : Pins :=
  { rst := false, cmdValid := false, cmd := ⟨0, 0⟩, payload := { charCount := 0, padBits := 0, armorErr := false, bits := [] } }

/-- The machine right after reset (R151), in the spec's example configuration (log 3), with nothing presented to it
(log 4). -/
def State.reset : State :=
  { cfg := Config.exampleInstance, regs := Regs.reset, pins := Pins.rest, later := [] }

end Sys2Proof.Machine
end

