-- ==== Sys2Proof/Machine/Flags.lean ====
section
/-! DEFINITION. The status codes and route codes as numbers, and the verdict flags FMISS and FSPEC: the predicate of each
`FVAL` kind (42_field_validate.md R101 to R109). -/

namespace Sys2Proof.Machine

/-- The 4-bit code of a status (60_exceptions.md R130). -/
def Status.code : Status → BitVec 4
  | .ok => 0x0
  | .unknownType => 0x1
  | .unknownSubtype => 0x2
  | .unsupportedType => 0x8
  | .insufficientBits => 0x9
  | .badNmeaChar => 0xA
  | .padRange => 0xB
  | .noHeader => 0xC
  | .illegalCmd => 0xD

/-- A status code is hard when its bit 3 is 1, soft otherwise (R131). -/
def statusIsHard (code : BitVec 4) : Bool := code.getLsbD 3

/-- The 6-bit route code (41_dispatch.md R86). -/
def Route.code : Route → Six
  | .none => 0x00
  | .posA => 0x01
  | .baseUtc => 0x02
  | .staticVoyage => 0x03
  | .bin6Common => 0x04
  | .bin6Sub => 0x05
  | .binAck => 0x06
  | .bin8Common => 0x07
  | .bin8Sub => 0x08
  | .sar => 0x09
  | .utcInq => 0x0A
  | .addrText => 0x0B
  | .bcastText => 0x0C
  | .unsupported => 0x0D
  | .assign => 0x0E
  | .dgnss => 0x0F
  | .classB => 0x10
  | .dlm => 0x11
  | .aton => 0x12
  | .chanMgmt => 0x13
  | .groupAssign => 0x14
  | .static24 => 0x15
  | .binSingleSlot => 0x16
  | .binMultiSlot => 0x17
  | .longRange => 0x18
  | .unknown => 0x3F

/-- The signed reading `sext_w(raw)` of a `w`-bit field, a mathematical integer (00_scope.md R14). -/
def sext (w raw : Nat) : Int :=
  if 2 * raw < 2 ^ w then (raw : Int) else (raw : Int) - 2 ^ w

/-- The verdict `(miss, spec)` of a predicate `P_kind(raw, w, K)` (42_field_validate.md, introduction). -/
structure FieldVerdict where
  miss : Bool
  special : Bool
  deriving DecidableEq, Repr

/-- `FVAL.NONE`: never missing (R101). -/
def predNone : FieldVerdict := ⟨false, false⟩

/-- `FVAL.ALLONES`: missing iff raw = 2^w - 1 (R102). -/
def predAllOnes (w raw : Nat) : FieldVerdict := ⟨raw == 2 ^ w - 1, false⟩

/-- `FVAL.EQ`: missing iff raw = K (R103). -/
def predEq (k raw : Nat) : FieldVerdict := ⟨raw == k, false⟩

/-- `FVAL.GE`: missing iff raw >= K (R104). -/
def predGe (k raw : Nat) : FieldVerdict := ⟨decide (k ≤ raw), false⟩

/-- `FVAL.GT`: missing iff raw > K (R105). -/
def predGt (k raw : Nat) : FieldVerdict := ⟨decide (k < raw), false⟩

/-- `FVAL.SABS`: missing iff |sext_w(raw)| > K, the absolute value taken without overflow (R106). -/
def predSabs (k w raw : Nat) : FieldVerdict := ⟨decide (k < (sext w raw).natAbs), false⟩

/-- `FVAL.SPECIAL`: never missing, special iff raw >= K (R107). -/
def predSpecial (k raw : Nat) : FieldVerdict := ⟨false, decide (k ≤ raw)⟩

/-- `FVAL.FLAG`: missing iff the flag bit has the given polarity (R108). -/
def predFlag (bit pol : Bool) : FieldVerdict := ⟨bit == pol, false⟩

end Sys2Proof.Machine
end

