-- ==== Sys2Proof/Machine/Operands.lean ====
section
/-! DEFINITION. The operands of `FVAL` as the spec's integers (30_encoding.md R64 to R67) and the extension of a field
into FVALUE. -/

namespace Sys2Proof.Machine

/-- The field's bit offset, unscaled (R65); also the flag bit's offset (R67). -/
def offsetOf (off : BitVec 12) : Nat := off.toNat

/-- The field width `w = wm1 + 1`, or for TEXT the character count `n = wm1 + 1` (R66). -/
def countOf (wm1 : Six) : Nat := wm1.toNat + 1

/-- The bound K, unsigned (R67). -/
def boundOf (k : KOperand) : Nat := k.toNat

/-- `to64(i)`: the 64-bit two's-complement pattern of an integer (00_scope.md R14). -/
def to64 (i : Int) : BitVec 64 := BitVec.ofInt 64 i

/-- A non-missing field in FVALUE: sign-extended when `sx` = 1, else zero-extended (R64). -/
def extendField (sx : Bool) (w raw : Nat) : BitVec 64 :=
  if sx then to64 (sext w raw) else to64 (raw : Int)

end Sys2Proof.Machine
end

