-- ==== Sys2Proof/Machine/Ops.lean ====
section
/-! DEFINITION. The shared operations: reads of the payload, the checks common to the operations, the register writes,
and how a command ends (00_scope.md R14: `raise` and `finish`). -/

namespace Sys2Proof.Machine

/-- `pbit(k)`: one payload bit (00_scope.md R14). -/
def PayloadBits.read : PayloadBits → Nat → Bool
  | [], _ => PayloadBits.unlisted
  | (a, b) :: rest, k => if a = k then b else PayloadBits.read rest k

/-- The environment's operation: the same payload with bit `k` being `b`, in canonical form. No command of the HDDU does
this (20_memory.md R54); it is how the Bit Extractor's buffer comes to be. -/
def PayloadBits.setBit : PayloadBits → Nat → Bool → PayloadBits
  | [], k, b => if b = PayloadBits.unlisted then [] else [(k, b)]
  | (a, c) :: rest, k, b =>
    if k < a then (if b = PayloadBits.unlisted then (a, c) :: rest else (k, b) :: (a, c) :: rest)
    else if k = a then (if b = PayloadBits.unlisted then rest else (k, b) :: rest)
    else (a, c) :: PayloadBits.setBit rest k b

/-- The buffer that holds the given bits from index `at` on, in transmission order (00_scope.md R13). -/
def PayloadBits.ofBits : Nat → List Bool → PayloadBits
  | _, [] => []
  | i, b :: bs =>
    if b = PayloadBits.unlisted then PayloadBits.ofBits (i + 1) bs else (i, b) :: PayloadBits.ofBits (i + 1) bs

/-- `pbit(k)` of the current payload. -/
def pbit (p : Payload) (k : Nat) : Bool := p.bits.read k

/-- `ubits(off, w)`: the field of `w` payload bits from `off`, the earlier bit the more significant (20_memory.md R46). -/
def ubits (p : Payload) (off : Nat) : Nat → Nat
  | 0 => 0
  | w + 1 => 2 * ubits p off w + (pbit p (off + w)).toNat

/-- The usable bit count `U`, a mathematical integer (20_memory.md R47). -/
def usable (p : Payload) : Int := (p.charCount : Int) * 6 - (p.padBits.toNat : Int)

/-- The field `[off, off+w)` is in bounds (20_memory.md R48). -/
abbrev inBounds (p : Payload) (off w : Nat) : Prop := (off : Int) + (w : Int) ≤ usable p

/-- The first two checks of `HDR`, `DISP` and `FVAL`: PAD_RANGE, then BAD_NMEA_CHAR (60_exceptions.md R133). -/
def inputStatus (p : Payload) : Option Status :=
  if 5 < p.padBits.toNat then some .padRange
  else if p.armorErr then some .badNmeaChar
  else none

/-- STATUS and RSP_VALID, written by every command (10_state.md R40). -/
def Regs.complete (st : Status) (r : Regs) : Regs := { r with status := st.code, rspValid := true }

/-- HV, MSG_ID, REPEAT, MMSI. -/
def Regs.writeHeader (hv : Bool) (msgId : Six) (rep : BitVec 2) (mmsi : BitVec 30) (r : Regs) : Regs :=
  { r with hv := hv, msgId := msgId, repeatInd := rep, mmsi := mmsi }

/-- DV, ROUTE, SUBIDX, DAC, FI. -/
def Regs.writeDispatch (dv : Bool) (route : Route) (subidx : Six) (dac : Dac) (fi : Six) (r : Regs) : Regs :=
  { r with dv := dv, route := route.code, subidx := subidx, dac := dac, fi := fi }

/-- FVALUE, FMISS, FSPEC. -/
def Regs.writeField (v : BitVec 64) (miss special : Bool) (r : Regs) : Regs :=
  { r with fvalue := v, fmiss := miss, fspec := special }

/-- The failure writes of `DISP` (41_dispatch.md R85), which `HDR` makes too (40_header.md R80). -/
def Regs.clearDispatch (r : Regs) : Regs := r.writeDispatch false .none 0 0 0

/-- The failure writes of `HDR` (40_header.md R80). -/
def Regs.clearHeader (r : Regs) : Regs := (r.writeHeader false 0 0 0).clearDispatch

/-- The failure writes of `FVAL` (42_field_validate.md R100). -/
def Regs.clearField (r : Regs) : Regs := r.writeField 0 false false

/-- A command ends with status `st` and the given register writes, all at one edge: `finish S` with a rule's result
writes, `raise S` with its failure writes (00_scope.md R14, R15). There is no trap: either way the machine goes on
(60_exceptions.md R134). -/
def respond (st : Status) (write : Regs → Regs) (s : State) : Host.Outcome State Fault Refusal :=
  .next { s with regs := (write s.regs).complete st }

end Sys2Proof.Machine
end

