-- ==== Sys2Proof/Machine/Control.lean ====
section
/-! DEFINITION. `NOP` and the illegal command (43_control.md). -/

namespace Sys2Proof.Machine

/-- `NOP`: STATUS <- OK, nothing else (R120). -/
def execNop (s : State) : Host.Outcome State Fault Refusal := respond .ok id s

/-- The illegal command: STATUS <- ILLEGAL_CMD, nothing else, no payload input examined (R121). The step performs it for
every command that decodes to none. -/
def execIllegal (s : State) : Host.Outcome State Fault Refusal := respond .illegalCmd id s

end Sys2Proof.Machine
end

