-- ==== Sys2Proof/Machine/FieldValidate.lean ====
section
/-! DEFINITION. `FVAL`, the bit-field validator: the behaviour the kinds share and one meaning per kind
(42_field_validate.md). -/

namespace Sys2Proof.Machine

/-- The result writes of a field that was read (R100): a missing field shows 0, never the raw sentinel. -/
def latchField (sx : Bool) (w raw : Nat) (v : FieldVerdict) (r : Regs) : Regs :=
  r.writeField (if v.miss then 0 else extendField sx w raw) v.miss v.special

/-- R100 for every kind but TEXT: the checks in their order, the read, the verdict `pred raw`. `reach` is how many payload
bits the kind needs besides the field: `foff + 1` for FLAG, 0 for the others. -/
def fvalField (sx : Bool) (off w reach : Nat) (pred : Nat → FieldVerdict) (s : State) : Host.Outcome State Fault Refusal :=
  match inputStatus s.pins.payload with
  | some st => respond st Regs.clearField s
  | none =>
    if inBounds s.pins.payload off w then
      if reach ≠ 0 ∧ usable s.pins.payload < (reach : Int) then respond .insufficientBits Regs.clearField s
      else
        let raw := ubits s.pins.payload off w
        respond .ok (latchField sx w raw (pred raw)) s
    else respond .insufficientBits Regs.clearField s

/-- Every one of the `n` 6-bit characters from `off` is the padding character (R109). -/
def allPadding (p : Payload) (padCode : Six) (off n : Nat) : Bool :=
  (List.range n).all fun j => ubits p (off + 6 * j) 6 == padCode.toNat

/-- R100 and R109 for TEXT. -/
def fvalChars (off n : Nat) (s : State) : Host.Outcome State Fault Refusal :=
  match inputStatus s.pins.payload with
  | some st => respond st Regs.clearField s
  | none =>
    if inBounds s.pins.payload off (6 * n) then
      respond .ok (Regs.writeField 0 (allPadding s.pins.payload s.cfg.padCode off n) false) s
    else respond .insufficientBits Regs.clearField s

/-- `FVAL.NONE` (R101). -/
def execFvalNone (sx : Bool) (off : BitVec 12) (wm1 : Six) (s : State) : Host.Outcome State Fault Refusal :=
  fvalField sx (offsetOf off) (countOf wm1) 0 (fun _ => predNone) s

/-- `FVAL.ALLONES` (R102). -/
def execFvalAllOnes (sx : Bool) (off : BitVec 12) (wm1 : Six) (s : State) : Host.Outcome State Fault Refusal :=
  fvalField sx (offsetOf off) (countOf wm1) 0 (predAllOnes (countOf wm1)) s

/-- `FVAL.EQ` (R103). -/
def execFvalEq (sx : Bool) (off : BitVec 12) (wm1 : Six) (k : KOperand) (s : State) : Host.Outcome State Fault Refusal :=
  fvalField sx (offsetOf off) (countOf wm1) 0 (predEq (boundOf k)) s

/-- `FVAL.GE` (R104). -/
def execFvalGe (sx : Bool) (off : BitVec 12) (wm1 : Six) (k : KOperand) (s : State) : Host.Outcome State Fault Refusal :=
  fvalField sx (offsetOf off) (countOf wm1) 0 (predGe (boundOf k)) s

/-- `FVAL.GT` (R105). -/
def execFvalGt (sx : Bool) (off : BitVec 12) (wm1 : Six) (k : KOperand) (s : State) : Host.Outcome State Fault Refusal :=
  fvalField sx (offsetOf off) (countOf wm1) 0 (predGt (boundOf k)) s

/-- `FVAL.SABS` (R106). -/
def execFvalSabs (sx : Bool) (off : BitVec 12) (wm1 : Six) (k : KOperand) (s : State) : Host.Outcome State Fault Refusal :=
  fvalField sx (offsetOf off) (countOf wm1) 0 (predSabs (boundOf k) (countOf wm1)) s

/-- `FVAL.SPECIAL` (R107). -/
def execFvalSpecial (sx : Bool) (off : BitVec 12) (wm1 : Six) (k : KOperand) (s : State) :
    Host.Outcome State Fault Refusal :=
  fvalField sx (offsetOf off) (countOf wm1) 0 (predSpecial (boundOf k)) s

/-- `FVAL.FLAG` (R108): the flag bit must be usable too, and the field's own value plays no part in the verdict. -/
def execFvalFlag (sx : Bool) (off : BitVec 12) (wm1 : Six) (foff : BitVec 12) (pol : Bool) (s : State) :
    Host.Outcome State Fault Refusal :=
  fvalField sx (offsetOf off) (countOf wm1) (offsetOf foff + 1)
    (fun _ => predFlag (pbit s.pins.payload (offsetOf foff)) pol) s

/-- `FVAL.TEXT` (R109); `sx` has no effect (30_encoding.md R64). -/
def execFvalText (_sx : Bool) (off : BitVec 12) (wm1 : Six) (s : State) : Host.Outcome State Fault Refusal :=
  fvalChars (offsetOf off) (countOf wm1) s

end Sys2Proof.Machine
end

