-- ==== Sys2Proof/Machine/Header.lean ====
section
/-! DEFINITION. `HDR`, the header extractor (40_header.md). -/

namespace Sys2Proof.Machine

/-- The success writes of `HDR`: the 38-bit header, and a dispatch verdict that is no longer valid (R80, R84). -/
def latchHeader (p : Payload) (r : Regs) : Regs :=
  (r.writeHeader true (BitVec.ofNat 6 (ubits p 0 6)) (BitVec.ofNat 2 (ubits p 6 2)) (BitVec.ofNat 30 (ubits p 8 30))).clearDispatch

/-- The length check of `HDR`: fewer than 7 characters or fewer than 38 usable bits (R80, R81). -/
abbrev headerTooShort (p : Payload) : Prop := p.charCount < 7 ∨ usable p < 38

/-- `HDR` (R80). -/
def execHdr (s : State) : Host.Outcome State Fault Refusal :=
  match inputStatus s.pins.payload with
  | some st => respond st Regs.clearHeader s
  | none =>
    if headerTooShort s.pins.payload then respond .insufficientBits Regs.clearHeader s
    else respond .ok (latchHeader s.pins.payload) s

end Sys2Proof.Machine
end

