-- ==== Sys2Proof/Machine/MessageRoute.lean ====
section
/-! DEFINITION. `DISP`, the message-type dispatcher (41_dispatch.md). -/

namespace Sys2Proof.Machine

/-- The route table `RT`, where it is defined (R86): ids 1 to 5, 7, 9 to 14, 16 to 18 and 20 to 27. -/
def routeTable (id : Nat) : Option Route :=
  match id with
  | 1 => some .posA
  | 2 => some .posA
  | 3 => some .posA
  | 4 => some .baseUtc
  | 5 => some .staticVoyage
  | 7 => some .binAck
  | 9 => some .sar
  | 10 => some .utcInq
  | 11 => some .baseUtc
  | 12 => some .addrText
  | 13 => some .binAck
  | 14 => some .bcastText
  | 16 => some .assign
  | 17 => some .dgnss
  | 18 => some .classB
  | 20 => some .dlm
  | 21 => some .aton
  | 22 => some .chanMgmt
  | 23 => some .groupAssign
  | 24 => some .static24
  | 25 => some .binSingleSlot
  | 26 => some .binMultiSlot
  | 27 => some .longRange
  | _ => none

/-- The 0-based index of the first entry of the table that equals `e` in both components (R89). -/
def subIndex (table : List SubType) (e : SubType) : Option Nat := table.findIdx? (· == e)

/-- The pair (dac, fi) peeked at `base` (R87), at the full offset also where it passes the 13 bits of `pb_off` (DESIGN CHOICE,
log 19). -/
def peek (p : Payload) (base : Nat) : SubType :=
  (BitVec.ofNat 10 (ubits p base 10), BitVec.ofNat 6 (ubits p (base + 10) 6))

/-- The DAC/FI peek of ids 6 and 8 (R85, R87 to R89): `known` when the pair is in the table, else `common`. -/
def peekRoute (base : Nat) (table : List SubType) (known common : Route) (s : State) : Host.Outcome State Fault Refusal :=
  if inBounds s.pins.payload base 16 then
    let e := peek s.pins.payload base
    match subIndex table e with
    | some n => respond .ok (Regs.writeDispatch true known (BitVec.ofNat 6 n) e.1 e.2) s
    | none => respond .unknownSubtype (Regs.writeDispatch true common 0 e.1 e.2) s
  else respond .insufficientBits Regs.clearDispatch s

/-- The verdict on a valid header with readable inputs: the multiplexer on MSG_ID (R85, R86). -/
def routeById (s : State) : Host.Outcome State Fault Refusal :=
  let id := s.regs.msgId.toNat
  if id = 6 then peekRoute s.cfg.dacfiOff6 s.cfg.sub6 .bin6Sub .bin6Common s
  else if id = 8 then peekRoute s.cfg.dacfiOff8 s.cfg.sub8 .bin8Sub .bin8Common s
  else if id = 15 ∨ id = 19 then respond .unsupportedType (Regs.writeDispatch false .unsupported 0 0 0) s
  else
    match routeTable id with
    | some r => respond .ok (Regs.writeDispatch true r 0 0 0) s
    | none => respond .unknownType (Regs.writeDispatch true .unknown 0 0 0) s

/-- `DISP` (R85). -/
def execDisp (s : State) : Host.Outcome State Fault Refusal :=
  if s.regs.hv then
    match inputStatus s.pins.payload with
    | some st => respond st Regs.clearDispatch s
    | none => routeById s
  else respond .noHeader Regs.clearDispatch s

end Sys2Proof.Machine
end

