-- ==== Sys2Proof/Machine/Dispatch.lean ====
section
/-! DEFINITION. The meaning of each instruction, one arm per constructor. -/

namespace Sys2Proof.Machine

def exec (i : Instr) (s : State) : Host.Outcome State Fault Refusal :=
  match i with
  | .nop => Sys2Proof.Machine.execNop s
  | .hdr => Sys2Proof.Machine.execHdr s
  | .disp => Sys2Proof.Machine.execDisp s
  | .fvalNone sx off wm1 => Sys2Proof.Machine.execFvalNone sx off wm1 s
  | .fvalAllOnes sx off wm1 => Sys2Proof.Machine.execFvalAllOnes sx off wm1 s
  | .fvalEq sx off wm1 k => Sys2Proof.Machine.execFvalEq sx off wm1 k s
  | .fvalGe sx off wm1 k => Sys2Proof.Machine.execFvalGe sx off wm1 k s
  | .fvalGt sx off wm1 k => Sys2Proof.Machine.execFvalGt sx off wm1 k s
  | .fvalSabs sx off wm1 k => Sys2Proof.Machine.execFvalSabs sx off wm1 k s
  | .fvalSpecial sx off wm1 k => Sys2Proof.Machine.execFvalSpecial sx off wm1 k s
  | .fvalFlag sx off wm1 foff pol => Sys2Proof.Machine.execFvalFlag sx off wm1 foff pol s
  | .fvalText sx off wm1 => Sys2Proof.Machine.execFvalText sx off wm1 s

end Sys2Proof.Machine
end

