-- ==== Sys2Proof/WellFormed.lean ====
section
/-! DEFINITION. The checks of the spec on commands (30_encoding.md R68, R69), on assembler operands (R71) and on the
configuration (00_scope.md R6, R7). `Instr` itself needs none: its fields have exactly the encoded widths. -/

namespace Sys2Proof

/-- `op` is not reserved (30_encoding.md R62). -/
def Command.opKnown (c : Command) : Bool := (c.word.extractLsb' 28 4).toNat ≤ 3

/-- Format Z: `cmd_word[27:0]` is zero (R68). Holds of every format F word. -/
def Command.zReservedZero (c : Command) : Bool :=
  (c.word.extractLsb' 28 4).toNat == 3 || c.word.extractLsb' 0 28 == 0

/-- Format F: `cmd_word[22:18]` is zero (R68). Holds of every other word. -/
def Command.fReservedZero (c : Command) : Bool :=
  (c.word.extractLsb' 28 4).toNat != 3 || c.word.extractLsb' 18 5 == 0

/-- Format F: `kind` is not reserved (R63). Holds of every other word. -/
def Command.kindKnown (c : Command) : Bool :=
  (c.word.extractLsb' 28 4).toNat != 3 || (c.word.extractLsb' 24 4).toNat ≤ 8

/-- A legal command: none of the three grounds of R69 for being illegal. -/
def Command.wf (c : Command) : Bool :=
  c.opKnown && c.zReservedZero && c.fReservedZero && c.kindKnown

/-- `off` is 0 to 4095 (R71); `foff` has the same range. -/
def offsetInRange (off : Nat) : Bool := off < 4096

/-- `w` and `n` are 1 to 64 (R71). -/
def widthInRange (w : Nat) : Bool := 1 ≤ w && w ≤ 64

/-- `k`, where it is written, is a 64-bit number (R67, R71). -/
def kInRange (k : Option Nat) : Bool := k.getD 0 < 2 ^ 64

/-- `k` is omitted for NONE and ALLONES (R71). -/
def FieldKind.kAllowed : FieldKind → Option Nat → Bool
  | .none, k => k.isNone
  | .allOnes, k => k.isNone
  | .eq, _ => true
  | .ge, _ => true
  | .gt, _ => true
  | .sabs, _ => true
  | .special, _ => true

/-- No operand of the line is out of range: an operand out of range is an assembly error (R71). -/
def AsmLine.wf : AsmLine → Bool
  | .nop => true
  | .hdr => true
  | .disp => true
  | .fval kind _ off w k => offsetInRange off && widthInRange w && kInRange k && kind.kAllowed k
  | .flag _ off w foff pol => offsetInRange off && widthInRange w && offsetInRange foff && decide (pol ≤ 1)
  | .text off n => offsetInRange off && widthInRange n
  | .word cw k => decide (cw < 2 ^ 32) && kInRange k
  | .pseudoDecode => true
  | .pseudoRaw off w => offsetInRange off && widthInRange w
  | .pseudoNa off w => offsetInRange off && widthInRange w
  | .pseudoSraw off w => offsetInRange off && widthInRange w

/-- What R6 says of `SUB6`: at most 64 distinct entries, each with dac = 1, none of the three sub-types the source
calls explicitly unsupported. -/
def sub6Admissible (t : List SubType) : Bool :=
  decide (t.length ≤ 64) && decide t.Nodup && t.all (fun e => e.1 == 1) &&
    [((1 : Dac), (12 : Six)), (1, 28), (1, 30)].all (fun e => !t.contains e)

/-- What R7 says of `SUB8`: at most 64 distinct entries, each with dac 1 or 200, (1, 26) among them, none of the three
sub-types the source calls explicitly unsupported. -/
def sub8Admissible (t : List SubType) : Bool :=
  decide (t.length ≤ 64) && decide t.Nodup && t.all (fun e => e.1 == 1 || e.1 == 200) && t.contains (1, 26) &&
    [((1 : Dac), (21 : Six)), (1, 40), (200, 23)].all (fun e => !t.contains e)

/-- An admissible instance of the parameters. -/
def Config.wf (c : Config) : Bool := sub6Admissible c.sub6 && sub8Admissible c.sub8

end Sys2Proof
end

