-- ==== Sys2Proof/Decode.lean ====
section
/-! DEFINITION. The decoder (30_encoding.md R70), the encoder (R61, R71), the opcode table (R73) and the assembler
(R71, R72). -/

namespace Sys2Proof

/-- `op = cmd_word[31:28]` (R62). -/
def opField (w : CommandWord) : BitVec 4 := w.extractLsb' 28 4

/-- `kind = cmd_word[27:24]` (R63). -/
def kindField (w : CommandWord) : BitVec 4 := w.extractLsb' 24 4

/-- `sx = cmd_word[23]` (R64). -/
def sxField (w : CommandWord) : Bool := w.getLsbD 23

/-- `off = cmd_word[17:6]` (R65). -/
def offField (w : CommandWord) : BitVec 12 := w.extractLsb' 6 12

/-- `wm1 = cmd_word[5:0]` (R66). -/
def wm1Field (w : CommandWord) : Six := w.extractLsb' 0 6

/-- The reserved bits of format Z, `cmd_word[27:0]` (R68). -/
def zReserved (w : CommandWord) : BitVec 28 := w.extractLsb' 0 28

/-- The reserved bits of format F, `cmd_word[22:18]` (R68). -/
def fReserved (w : CommandWord) : BitVec 5 := w.extractLsb' 18 5

/-- The flag bit's payload offset, `K[11:0]` (R67). -/
def kFlagOffset (k : KOperand) : BitVec 12 := k.extractLsb' 0 12

/-- The flag's "missing" polarity, `K[12]` (R67). -/
def kFlagPolarity (k : KOperand) : Bool := k.getLsbD 12

/-- The `FVAL` rows, by `kind` (R63); kinds 0x9 to 0xF are reserved. -/
def decodeFval (kind : Nat) (sx : Bool) (off : BitVec 12) (wm1 : Six) (k : KOperand) : Option Instr :=
  match kind with
  | 0 => some (.fvalNone sx off wm1)
  | 1 => some (.fvalAllOnes sx off wm1)
  | 2 => some (.fvalEq sx off wm1 k)
  | 3 => some (.fvalGe sx off wm1 k)
  | 4 => some (.fvalGt sx off wm1 k)
  | 5 => some (.fvalSabs sx off wm1 k)
  | 6 => some (.fvalSpecial sx off wm1 k)
  | 7 => some (.fvalFlag sx off wm1 (kFlagOffset k) (kFlagPolarity k))
  | 8 => some (.fvalText sx off wm1)
  | _ => none

/-- The decoder of R70; `none` is ILLEGAL. Whether a word is legal, and which row it is, depends on the word alone; K only
supplies the operands of the kinds that use it. -/
def decode (c : Command) : Option Instr :=
  match (opField c.word).toNat with
  | 0 => if zReserved c.word = 0 then some .nop else none
  | 1 => if zReserved c.word = 0 then some .hdr else none
  | 2 => if zReserved c.word = 0 then some .disp else none
  | 3 =>
    if fReserved c.word = 0 then
      decodeFval (kindField c.word).toNat (sxField c.word) (offField c.word) (wm1Field c.word) c.k
    else none
  | _ => none

/-- A format Z word (R61). -/
def wordZ (op : BitVec 4) : CommandWord := op ++ (0 : BitVec 28)

/-- A format F word (R61). -/
def wordF (kind : BitVec 4) (sx : Bool) (off : BitVec 12) (wm1 : Six) : CommandWord :=
  (3 : BitVec 4) ++ kind ++ BitVec.ofBool sx ++ (0 : BitVec 5) ++ off ++ wm1

/-- `K = foff | pol << 12` (R71). -/
def flagK (foff : BitVec 12) (pol : Bool) : KOperand := (0 : BitVec 51) ++ BitVec.ofBool pol ++ foff

/-- The encoder: the command an instruction stands for, K bits that the instruction does not use zero. -/
def encode : Instr → Command
  | .nop => ⟨wordZ 0, 0⟩
  | .hdr => ⟨wordZ 1, 0⟩
  | .disp => ⟨wordZ 2, 0⟩
  | .fvalNone sx off wm1 => ⟨wordF 0 sx off wm1, 0⟩
  | .fvalAllOnes sx off wm1 => ⟨wordF 1 sx off wm1, 0⟩
  | .fvalEq sx off wm1 k => ⟨wordF 2 sx off wm1, k⟩
  | .fvalGe sx off wm1 k => ⟨wordF 3 sx off wm1, k⟩
  | .fvalGt sx off wm1 k => ⟨wordF 4 sx off wm1, k⟩
  | .fvalSabs sx off wm1 k => ⟨wordF 5 sx off wm1, k⟩
  | .fvalSpecial sx off wm1 k => ⟨wordF 6 sx off wm1, k⟩
  | .fvalFlag sx off wm1 foff pol => ⟨wordF 7 sx off wm1, flagK foff pol⟩
  | .fvalText sx off wm1 => ⟨wordF 8 sx off wm1, 0⟩

/-- The rows of spec/opcode_table.json (R73), in its order. -/
def opcodeTable : List OpcodeRow :=
  [⟨"NOP", 0x00000000, 0xFFFFFFFF⟩, ⟨"HDR", 0x10000000, 0xFFFFFFFF⟩, ⟨"DISP", 0x20000000, 0xFFFFFFFF⟩,
   ⟨"FVAL.NONE", 0x30000000, 0xFF7C0000⟩, ⟨"FVAL.ALLONES", 0x31000000, 0xFF7C0000⟩,
   ⟨"FVAL.EQ", 0x32000000, 0xFF7C0000⟩, ⟨"FVAL.GE", 0x33000000, 0xFF7C0000⟩,
   ⟨"FVAL.GT", 0x34000000, 0xFF7C0000⟩, ⟨"FVAL.SABS", 0x35000000, 0xFF7C0000⟩,
   ⟨"FVAL.SPECIAL", 0x36000000, 0xFF7C0000⟩, ⟨"FVAL.FLAG", 0x37000000, 0xFF7C0000⟩,
   ⟨"FVAL.TEXT", 0x38000000, 0xFF7C0000⟩]

/-- The word `w` is of the row `r`. -/
def OpcodeRow.covers (r : OpcodeRow) (w : CommandWord) : Bool := w &&& r.mask == r.matchBits

/-- An instruction's bits as spec/opcode_table.json numbers them, bit 0 the least significant bit of `cmd_word`; the K
operand's bits count on from bit 32 (DESIGN CHOICE, log 9: the HDDU stores no command in a memory). Bits at or above
`nbits` are zero. -/
def commandOfBits (nbits w : Nat) : Command :=
  let v := w % 2 ^ nbits
  ⟨BitVec.ofNat 32 v, BitVec.ofNat 64 (v / 2 ^ 32)⟩

/-- What the decoder reads from an instruction whose bits are `w`. -/
def decodeTableWord (nbits w : Nat) : Option Instr := decode (commandOfBits nbits w)

/-- The `kind` code of an assembler kind (R63). -/
def FieldKind.code : FieldKind → BitVec 4
  | .none => 0
  | .allOnes => 1
  | .eq => 2
  | .ge => 3
  | .gt => 4
  | .sabs => 5
  | .special => 6

/-- The expansion of the pseudo-commands (R72); every other line stands for itself. -/
def AsmLine.expand : AsmLine → List AsmLine
  | .pseudoDecode => [.hdr, .disp]
  | .pseudoRaw off w => [.fval .none false off w none]
  | .pseudoNa off w => [.fval .allOnes false off w none]
  | .pseudoSraw off w => [.fval .none true off w none]
  | l => [l]

/-- The command of one line that is no pseudo-command, for operands in range: `w` and `n` are assembled as `w - 1` and
`n - 1`, an omitted `k` is 0 (R71). -/
def AsmLine.command : AsmLine → Option Command
  | .nop => some (encode .nop)
  | .hdr => some (encode .hdr)
  | .disp => some (encode .disp)
  | .fval kind signed off w k =>
    some ⟨wordF kind.code signed (BitVec.ofNat 12 off) (BitVec.ofNat 6 (w - 1)), BitVec.ofNat 64 (k.getD 0)⟩
  | .flag signed off w foff pol =>
    some ⟨wordF 7 signed (BitVec.ofNat 12 off) (BitVec.ofNat 6 (w - 1)), flagK (BitVec.ofNat 12 foff) (pol == 1)⟩
  | .text off n => some ⟨wordF 8 false (BitVec.ofNat 12 off) (BitVec.ofNat 6 (n - 1)), 0⟩
  | .word cw k => some ⟨BitVec.ofNat 32 cw, BitVec.ofNat 64 (k.getD 0)⟩
  | .pseudoDecode => none
  | .pseudoRaw _ _ => none
  | .pseudoNa _ _ => none
  | .pseudoSraw _ _ => none

/-- The commands a line assembles to; `none` is an assembly error, an operand out of range (R71). -/
def AsmLine.assemble (l : AsmLine) : Option (List Command) :=
  if l.wf then l.expand.mapM AsmLine.command else none

end Sys2Proof
end

