-- ==== Sys2Proof/Machine/Edge.lean ====
section
/-! DEFINITION. What a rising edge of `clk` does around a command (70_reset_and_hazards.md R150 to R157) and how the
sampled inputs move on. -/

namespace Sys2Proof.Machine

/-- The inputs once the host drives nothing new: no reset, no command, the payload held. -/
def Pins.idle (p : Pins) : Pins := { p with rst := false, cmdValid := false }

/-- After an edge the next pins of `later` are the coming edge's; when none is left the host is idle (DESIGN CHOICE,
log 2). -/
def State.advance (s : State) : State :=
  match s.later with
  | [] => { s with pins := s.pins.idle }
  | p :: ps => { s with pins := p, later := ps }

/-- An edge with `rst` = 1: every register takes its reset value; the configuration is not affected (R150, R151). -/
def State.resetRegs (s : State) : State := { s with regs := Regs.reset }

/-- An edge with `rst` = 0 and `cmd_valid` = 0: RSP_VALID becomes 0, every other register keeps its value (R157). -/
def State.idleRegs (s : State) : State := { s with regs := { s.regs with rspValid := false } }

/-- The inputs move on once a command's edge is done. -/
def advanced : Host.Outcome State Fault Refusal → Host.Outcome State Fault Refusal
  | .next s => .next s.advance
  | .fault r => .fault r
  | .refused r => .refused r

/-- The pins with the command `c` presented and accepted at the coming edge (R154), the payload inputs as they are. -/
def Pins.present (c : Command) (p : Pins) : Pins := { p with rst := false, cmdValid := true, cmd := c }

end Sys2Proof.Machine
end

