-- ==== Sys2Proof/Machine/Step.lean ====
section
/-! DEFINITION. One step of the machine: one rising edge of `clk` (70_reset_and_hazards.md). -/

namespace Sys2Proof.Machine

/-- One rising edge: reset wins over a command (R150); a valid command is accepted, decoded and completed at this edge
(R154, R155), an illegal one as R121 says; without one the registers hold (R157). -/
def step (s : State) : Host.Outcome State Fault Refusal :=
  if s.pins.rst then .next s.resetRegs.advance
  else if s.pins.cmdValid then
    match decode s.pins.cmd with
    | some i => advanced (exec i s)
    | none => advanced (execIllegal s)
  else .next s.idleRegs.advance

/-- `s` with the instruction whose bits are `w` presented on the command port for the coming edge: the HDDU has no
program counter, a program is what the host presents (log 5). -/
def State.withFetchWord (s : State) (nbits w : Nat) : State :=
  { s with pins := s.pins.present (commandOfBits nbits w) }

end Sys2Proof.Machine
end

