-- ==== Sys2Proof/Machine/Ports.lean ====
section
/-! DEFINITION. The ports that are functions of the state (10_state.md R22): the payload read interface, with the reads a
command makes on it (20_memory.md R46, R48, R52), and the outputs. -/

namespace Sys2Proof.Machine

/-- One field read `ubits(off, w)`, as a rule's pseudocode asks for it (20_memory.md R46). -/
structure ReadRequest where
  off : Nat
  w : Nat
  deriving DecidableEq, Repr

/-- The request lines of the payload read interface for one field read (10_state.md R22). -/
structure PbRequest where
  /-- `pb_off`, 13 bits -/
  pbOff : BitVec 13
  /-- `pb_w`, 7 bits -/
  pbW : BitVec 7
  deriving DecidableEq, Repr

/-- The request lines a read drives (20_memory.md R46). An offset of more than 13 bits has no value on them in the spec: a free
value stands there (log 19). -/
def ReadRequest.lines (r : ReadRequest) : PbRequest :=
  { pbOff := if r.off < 2 ^ 13 then BitVec.ofNat 13 r.off else Config.pbOffPastWidth r.off, pbW := BitVec.ofNat 7 r.w }

/-- `pb_data`, the Bit Extractor's answer to a read in the same cycle: `zext_64(ubits(off, w))` (20_memory.md R46). -/
def ReadRequest.answer (p : Payload) (r : ReadRequest) : BitVec 64 := BitVec.ofNat 64 (ubits p r.off r.w)

/-- The reads of `HDR` (20_memory.md R52), made only when its checks pass. -/
def hdrReads (s : State) : List ReadRequest :=
  if inputStatus s.pins.payload = none ∧ ¬ headerTooShort s.pins.payload then [⟨0, 6⟩, ⟨6, 2⟩, ⟨8, 30⟩] else []

/-- The two reads of the DAC/FI peek at `base`, when its field is in bounds (41_dispatch.md R87, R88). DESIGN CHOICE (log 19):
with `CC_W` above 10 a parameter `DACFI_OFF_6` or `DACFI_OFF_8` can put an in-bounds peek past the 13 bits of `pb_off`, of which
the spec says nothing; the read is of the field at the full offset there too. -/
def peekReads (base : Nat) (s : State) : List ReadRequest :=
  if inBounds s.pins.payload base 16 then [⟨base, 10⟩, ⟨base + 10, 6⟩] else []

/-- The reads of `DISP`: none but the peek of ids 6 and 8 (41_dispatch.md R93). -/
def dispReads (s : State) : List ReadRequest :=
  if s.regs.hv = true ∧ inputStatus s.pins.payload = none then
    if s.regs.msgId.toNat = 6 then peekReads s.cfg.dacfiOff6 s
    else if s.regs.msgId.toNat = 8 then peekReads s.cfg.dacfiOff8 s
    else []
  else []

/-- The reads of an `FVAL` of any kind but TEXT: its field, and `extra`, when its checks pass. -/
def fieldReads (off w reach : Nat) (extra : List ReadRequest) (s : State) : List ReadRequest :=
  if inputStatus s.pins.payload = none ∧ inBounds s.pins.payload off w ∧
      ¬ (reach ≠ 0 ∧ usable s.pins.payload < (reach : Int)) then ⟨off, w⟩ :: extra else []

/-- The reads of `FVAL.TEXT`: `n` separate 6-bit characters (20_memory.md R52). -/
def textReads (off n : Nat) (s : State) : List ReadRequest :=
  if inputStatus s.pins.payload = none ∧ inBounds s.pins.payload off (6 * n) then
    (List.range n).map fun j => ⟨off + 6 * j, 6⟩
  else []

/-- The requests a command makes on the payload read interface at its accepting edge. -/
def instrReads (i : Instr) (s : State) : List ReadRequest :=
  match i with
  | .nop => []
  | .hdr => hdrReads s
  | .disp => dispReads s
  | .fvalNone _ off wm1 => fieldReads (offsetOf off) (countOf wm1) 0 [] s
  | .fvalAllOnes _ off wm1 => fieldReads (offsetOf off) (countOf wm1) 0 [] s
  | .fvalEq _ off wm1 _ => fieldReads (offsetOf off) (countOf wm1) 0 [] s
  | .fvalGe _ off wm1 _ => fieldReads (offsetOf off) (countOf wm1) 0 [] s
  | .fvalGt _ off wm1 _ => fieldReads (offsetOf off) (countOf wm1) 0 [] s
  | .fvalSabs _ off wm1 _ => fieldReads (offsetOf off) (countOf wm1) 0 [] s
  | .fvalSpecial _ off wm1 _ => fieldReads (offsetOf off) (countOf wm1) 0 [] s
  | .fvalFlag _ off wm1 foff _ =>
    fieldReads (offsetOf off) (countOf wm1) (offsetOf foff + 1) [⟨offsetOf foff, 1⟩] s
  | .fvalText _ off wm1 => textReads (offsetOf off) (countOf wm1) s

/-- The reads of the cycle that ends at the coming edge: those of the command the edge accepts (70_reset_and_hazards.md R155);
none at a reset edge, without a command, or for an illegal command (43_control.md R121). -/
def State.requests (s : State) : List ReadRequest :=
  if s.pins.rst then []
  else if s.pins.cmdValid then
    match decode s.pins.cmd with
    | some i => instrReads i s
    | none => []
  else []

/-- `pb_data` over the cycle that ends at the coming edge: one 64-bit answer per read, in the order of the reads (R22). -/
def State.pbData (s : State) : List (BitVec 64) := s.requests.map (ReadRequest.answer s.pins.payload)

/-- The output ports (R22). -/
structure Outputs where
  /-- `pb_off` and `pb_w`, one pair per field read of the cycle -/
  pb : List PbRequest
  cmdReady : Bool
  rspValid : Bool
  status : BitVec 4
  hv : Bool
  msgId : Six
  repeatInd : BitVec 2
  mmsi : BitVec 30
  dv : Bool
  route : Six
  subidx : Six
  dac : Dac
  fi : Six
  fvalue : BitVec 64
  fmiss : Bool
  fspec : Bool
  deriving DecidableEq, Repr

/-- `cmd_ready` is constantly 1 (70_reset_and_hazards.md R154), the `pb_*` request lines are those of the cycle's reads, and every
other output is its register (R22). -/
def State.outputs (s : State) : Outputs :=
  { pb := s.requests.map ReadRequest.lines, cmdReady := true, rspValid := s.regs.rspValid, status := s.regs.status,
    hv := s.regs.hv, msgId := s.regs.msgId, repeatInd := s.regs.repeatInd, mmsi := s.regs.mmsi, dv := s.regs.dv,
    route := s.regs.route, subidx := s.regs.subidx, dac := s.regs.dac, fi := s.regs.fi, fvalue := s.regs.fvalue,
    fmiss := s.regs.fmiss, fspec := s.regs.fspec }

end Sys2Proof.Machine
end

