-- ==== Sys2Proof/Safety.lean ====
section
/-! DEFINITION. What a good state is (the machine's invariant), and the predicates the statements are written with. Where
a table of the spec is needed here it is written out again from the spec, not taken from the meanings. -/

namespace Sys2Proof.Machine

/-- The status codes the HDDU can produce (60_exceptions.md R130); every other code is reserved and unreachable. -/
def producedStatuses : List (BitVec 4) := [0x0, 0x1, 0x2, 0x8, 0x9, 0xA, 0xB, 0xC, 0xD]

/-- The statuses each command can end with: the "raised by" column of R130. -/
def statusesOf : Instr → List (BitVec 4)
  | .nop => [0x0]
  | .hdr => [0x0, 0x9, 0xA, 0xB]
  | .disp => [0x0, 0x1, 0x2, 0x8, 0x9, 0xA, 0xB, 0xC]
  | .fvalNone _ _ _ => [0x0, 0x9, 0xA, 0xB]
  | .fvalAllOnes _ _ _ => [0x0, 0x9, 0xA, 0xB]
  | .fvalEq _ _ _ _ => [0x0, 0x9, 0xA, 0xB]
  | .fvalGe _ _ _ _ => [0x0, 0x9, 0xA, 0xB]
  | .fvalGt _ _ _ _ => [0x0, 0x9, 0xA, 0xB]
  | .fvalSabs _ _ _ _ => [0x0, 0x9, 0xA, 0xB]
  | .fvalSpecial _ _ _ _ => [0x0, 0x9, 0xA, 0xB]
  | .fvalFlag _ _ _ _ _ => [0x0, 0x9, 0xA, 0xB]
  | .fvalText _ _ _ => [0x0, 0x9, 0xA, 0xB]

/-- The rows of R86's table for the ids that are routed without a peek: (id, route code). -/
def routedIds : List (Nat × Six) :=
  [(1, 0x01), (2, 0x01), (3, 0x01), (4, 0x02), (11, 0x02), (5, 0x03), (7, 0x06), (13, 0x06), (9, 0x09), (10, 0x0A),
   (12, 0x0B), (14, 0x0C), (16, 0x0E), (17, 0x0F), (18, 0x10), (20, 0x11), (21, 0x12), (22, 0x13), (23, 0x14),
   (24, 0x15), (25, 0x16), (26, 0x17), (27, 0x18)]

/-- The ids that are unknown (41_dispatch.md R92). -/
abbrev unknownId (id : Nat) : Prop := id = 0 ∨ (28 ≤ id ∧ id ≤ 63)

/-- An `FVAL` of any of the nine kinds. -/
def isFval : Instr → Bool
  | .nop => false
  | .hdr => false
  | .disp => false
  | .fvalNone _ _ _ => true
  | .fvalAllOnes _ _ _ => true
  | .fvalEq _ _ _ _ => true
  | .fvalGe _ _ _ _ => true
  | .fvalGt _ _ _ _ => true
  | .fvalSabs _ _ _ _ => true
  | .fvalSpecial _ _ _ _ => true
  | .fvalFlag _ _ _ _ _ => true
  | .fvalText _ _ _ => true

/-- The payload bits an `FVAL` needs below U: the end of its field, of its text, and its flag bit (R100). -/
def fvalReach : Instr → Nat
  | .nop => 0
  | .hdr => 0
  | .disp => 0
  | .fvalNone _ off wm1 => off.toNat + (wm1.toNat + 1)
  | .fvalAllOnes _ off wm1 => off.toNat + (wm1.toNat + 1)
  | .fvalEq _ off wm1 _ => off.toNat + (wm1.toNat + 1)
  | .fvalGe _ off wm1 _ => off.toNat + (wm1.toNat + 1)
  | .fvalGt _ off wm1 _ => off.toNat + (wm1.toNat + 1)
  | .fvalSabs _ off wm1 _ => off.toNat + (wm1.toNat + 1)
  | .fvalSpecial _ off wm1 _ => off.toNat + (wm1.toNat + 1)
  | .fvalFlag _ off wm1 foff _ => max (off.toNat + (wm1.toNat + 1)) (foff.toNat + 1)
  | .fvalText _ off wm1 => off.toNat + 6 * (wm1.toNat + 1)

/-- The payload inputs pass the first two checks: the pad count is 0 to 5 and no character is malformed. -/
abbrev readable (p : Payload) : Prop := p.padBits.toNat ≤ 5 ∧ p.armorErr = false

/-- A `w`-bit raw value read as two's complement (00_scope.md R14, `sext_w`), by its sign bit. -/
def signedOf (w raw : Nat) : Int := if 2 ^ (w - 1) ≤ raw then (raw : Int) - (2 ^ w : Nat) else (raw : Int)

/-- A non-missing field in FVALUE (30_encoding.md R64). -/
def shownField (sx : Bool) (w raw : Nat) : BitVec 64 :=
  bif sx then BitVec.ofInt 64 (signedOf w raw) else BitVec.ofNat 64 raw

/-- The same state with another payload on the inputs. -/
def State.withPayload (s : State) (p : Payload) : State := { s with pins := { s.pins with payload := p } }

/-- Two payloads that differ in their bits at most. -/
abbrev sameShape (p q : Payload) : Prop :=
  q.charCount = p.charCount ∧ q.padBits = p.padBits ∧ q.armorErr = p.armorErr

/-- Two payloads of one shape that agree on every bit the requests read. -/
def agreeOn (reads : List ReadRequest) (p q : Payload) : Prop :=
  sameShape p q ∧ ∀ r ∈ reads, ∀ k, r.off ≤ k → k < r.off + r.w → pbit q k = pbit p k

/-- How many low bits of the K operand an instruction uses (30_encoding.md R67). -/
def usedKBits : Instr → Nat
  | .nop => 0
  | .hdr => 0
  | .disp => 0
  | .fvalNone _ _ _ => 0
  | .fvalAllOnes _ _ _ => 0
  | .fvalEq _ _ _ _ => 64
  | .fvalGe _ _ _ _ => 64
  | .fvalGt _ _ _ _ => 64
  | .fvalSabs _ _ _ _ => 64
  | .fvalSpecial _ _ _ _ => 64
  | .fvalFlag _ _ _ _ _ => 13
  | .fvalText _ _ _ => 0

/-- A format F word as the assembler's formula and the opcode map write it (30_encoding.md R71, R73):
`op << 28 | kind << 24 | sx << 23 | off << 6 | wm1`. -/
def fvalWordOf (kind : BitVec 4) (sx : Bool) (off : BitVec 12) (wm1 : Six) : CommandWord :=
  0x30000000 ||| (kind.setWidth 32 <<< 24) ||| ((BitVec.ofBool sx).setWidth 32 <<< 23) |||
    (off.setWidth 32 <<< 6) ||| wm1.setWidth 32

/-- The same `FVAL` with another `sx` bit; any other command unchanged. -/
def withSx (b : Bool) : Instr → Instr
  | .nop => .nop
  | .hdr => .hdr
  | .disp => .disp
  | .fvalNone _ off wm1 => .fvalNone b off wm1
  | .fvalAllOnes _ off wm1 => .fvalAllOnes b off wm1
  | .fvalEq _ off wm1 k => .fvalEq b off wm1 k
  | .fvalGe _ off wm1 k => .fvalGe b off wm1 k
  | .fvalGt _ off wm1 k => .fvalGt b off wm1 k
  | .fvalSabs _ off wm1 k => .fvalSabs b off wm1 k
  | .fvalSpecial _ off wm1 k => .fvalSpecial b off wm1 k
  | .fvalFlag _ off wm1 foff pol => .fvalFlag b off wm1 foff pol
  | .fvalText _ off wm1 => .fvalText b off wm1

/-- The header registers HV, MSG_ID, REPEAT, MMSI hold the same in both. -/
abbrev sameHeader (r q : Regs) : Prop :=
  q.hv = r.hv ∧ q.msgId = r.msgId ∧ q.repeatInd = r.repeatInd ∧ q.mmsi = r.mmsi

/-- The dispatch registers DV, ROUTE, SUBIDX, DAC, FI hold the same in both. -/
abbrev sameDispatch (r q : Regs) : Prop :=
  q.dv = r.dv ∧ q.route = r.route ∧ q.subidx = r.subidx ∧ q.dac = r.dac ∧ q.fi = r.fi

/-- The field registers FVALUE, FMISS, FSPEC hold the same in both. -/
abbrev sameField (r q : Regs) : Prop := q.fvalue = r.fvalue ∧ q.fmiss = r.fmiss ∧ q.fspec = r.fspec

/-- `DISP`'s failure values, with the given route (41_dispatch.md R85). -/
abbrev dispatchCleared (route : Six) (r : Regs) : Prop :=
  r.dv = false ∧ r.route = route ∧ r.subidx = 0 ∧ r.dac = 0 ∧ r.fi = 0

/-- The pair (dac, fi) that the payload holds at `base` equals `e` in both components (41_dispatch.md R87). -/
abbrev peeks (p : Payload) (base : Nat) (e : SubType) : Prop :=
  ubits p base 10 = e.1.toNat ∧ ubits p (base + 10) 6 = e.2.toNat

/-- The status R133 gives `HDR`: PAD_RANGE, then BAD_NMEA_CHAR, then INSUFFICIENT_BITS. -/
def hdrPriority (s : State) : BitVec 4 :=
  if 6 ≤ s.pins.payload.padBits.toNat then 0xB
  else if s.pins.payload.armorErr = true then 0xA
  else if s.pins.payload.charCount < 7 ∨ usable s.pins.payload < 38 then 0x9
  else 0x0

/-- The status R133 gives `FVAL`: PAD_RANGE, then BAD_NMEA_CHAR, then INSUFFICIENT_BITS. -/
def fvalPriority (i : Instr) (s : State) : BitVec 4 :=
  if 6 ≤ s.pins.payload.padBits.toNat then 0xB
  else if s.pins.payload.armorErr = true then 0xA
  else if usable s.pins.payload < (fvalReach i : Int) then 0x9
  else 0x0

/-- The status R133 gives `DISP` for an id that is peeked at `base`. -/
def peekPriority (base : Nat) (table : List SubType) (s : State) : BitVec 4 :=
  if usable s.pins.payload < (base : Int) + 16 then 0x9
  else if ∃ e ∈ table, peeks s.pins.payload base e then 0x0
  else 0x2

/-- The status R133 gives `DISP`: NO_HEADER, then PAD_RANGE, then BAD_NMEA_CHAR, then (ids 6 and 8) INSUFFICIENT_BITS, then
UNSUPPORTED_TYPE (ids 15, 19), then UNKNOWN_SUBTYPE or UNKNOWN_TYPE. -/
def dispPriority (s : State) : BitVec 4 :=
  if s.regs.hv = false then 0xC
  else if 6 ≤ s.pins.payload.padBits.toNat then 0xB
  else if s.pins.payload.armorErr = true then 0xA
  else if s.regs.msgId = 6 then peekPriority s.cfg.dacfiOff6 s.cfg.sub6 s
  else if s.regs.msgId = 8 then peekPriority s.cfg.dacfiOff8 s.cfg.sub8 s
  else if s.regs.msgId = 15 ∨ s.regs.msgId = 19 then 0x8
  else if unknownId s.regs.msgId.toNat then 0x1
  else 0x0

/-- The status R133 gives a command. -/
def statusPriority (i : Instr) (s : State) : BitVec 4 :=
  match i with
  | .nop => 0x0
  | .hdr => hdrPriority s
  | .disp => dispPriority s
  | .fvalNone _ _ _ => fvalPriority i s
  | .fvalAllOnes _ _ _ => fvalPriority i s
  | .fvalEq _ _ _ _ => fvalPriority i s
  | .fvalGe _ _ _ _ => fvalPriority i s
  | .fvalGt _ _ _ _ => fvalPriority i s
  | .fvalSabs _ _ _ _ => fvalPriority i s
  | .fvalSpecial _ _ _ _ => fvalPriority i s
  | .fvalFlag _ _ _ _ _ => fvalPriority i s
  | .fvalText _ _ _ => fvalPriority i s

/-- The header registers hold zeros when HV = 0 (10_state.md R25 to R28). -/
abbrev headerConsistent (r : Regs) : Prop := r.hv = false → r.msgId = 0 ∧ r.repeatInd = 0 ∧ r.mmsi = 0

/-- Where a peeked pair is in the dispatch registers: not in the table and the common route, or at SUBIDX of the table
and the sub-type's route (41_dispatch.md R85, R89). -/
abbrev peekConsistent (table : List SubType) (common known : Six) (r : Regs) : Prop :=
  (r.route = common ∧ r.subidx = 0 ∧ (r.dac, r.fi) ∉ table) ∨
    (r.route = known ∧ table[r.subidx.toNat]? = some (r.dac, r.fi))

/-- The valid verdict in the dispatch registers is the one R86 gives the latched message id. -/
abbrev verdictConsistent (c : Config) (r : Regs) : Prop :=
  (r.msgId = 6 ∧ peekConsistent c.sub6 0x04 0x05 r) ∨
  (r.msgId = 8 ∧ peekConsistent c.sub8 0x07 0x08 r) ∨
  (r.subidx = 0 ∧ r.dac = 0 ∧ r.fi = 0 ∧
    ((r.msgId.toNat, r.route) ∈ routedIds ∨ (unknownId r.msgId.toNat ∧ r.route = 0x3F)))

/-- The dispatch registers: with DV = 1 there is a header and the verdict is its own, with DV = 0 there is no verdict but
the UNSUPPORTED route of ids 15 and 19 (10_state.md R29 to R33). -/
abbrev dispatchConsistent (c : Config) (r : Regs) : Prop :=
  (r.dv = true → r.hv = true ∧ verdictConsistent c r) ∧
  (r.dv = false → r.subidx = 0 ∧ r.dac = 0 ∧ r.fi = 0 ∧
    (r.route = 0x00 ∨ (r.route = 0x0D ∧ r.hv = true ∧ (r.msgId = 15 ∨ r.msgId = 19))))

/-- The field registers: a missing field shows 0 and is not special (10_state.md R34 to R36). -/
abbrev fieldConsistent (r : Regs) : Prop := r.fmiss = true → r.fvalue = 0 ∧ r.fspec = false

/-- The invariant of the registers. -/
abbrev Regs.Consistent (c : Config) (r : Regs) : Prop :=
  r.status ∈ producedStatuses ∧ headerConsistent r ∧ dispatchConsistent c r ∧ fieldConsistent r

/-- The invariant of the machine: an admissible configuration, payloads the inputs can carry with their bits in canonical
form, and consistent registers. -/
abbrev State.Inv (s : State) : Prop :=
  s.cfg.wf = true ∧ s.pins.payload.wf s.cfg.ccW = true ∧ (∀ p ∈ s.later, p.payload.wf s.cfg.ccW = true) ∧
    s.regs.Consistent s.cfg

end Sys2Proof.Machine
end

