-- ==== Sys2Proof/Certificates/Slice0/Obligations.lean ====
section
/-! DEFINITION. The statements for the provers: each a rule of spec/ about what a command, an edge or the machine does. They
are over every state, every configuration and every payload unless a premise says otherwise. -/

open Sys2Proof Sys2Proof.Machine

/-! ### Encoding (30_encoding.md) -/

/-- Decoding an encoded instruction gives it back, with every operand at every value (R61, R64 to R67, R70, R71). -/
def Obligations.DecodeOfEncodeIsIdentity : Prop := ∀ i : Instr, decode (encode i) = some i

/-- A legal command is restored by encoding what it decodes to: its whole word, and the K bits the instruction uses. -/
def Obligations.EncodeOfDecodeRestoresCommand : Prop :=
  ∀ (c : Command) (i : Instr), decode c = some i →
    (encode i).word = c.word ∧ (encode i).k.toNat = c.k.toNat % 2 ^ usedKBits i

/-- The decoder and the mask and match table of spec/opcode_table.json say the same of every word: what is decoded is of the
row of its mnemonic, what is of a row decodes to that row's instruction, and a word of no row is illegal. -/
def Obligations.DecodeFollowsOpcodeTable : Prop :=
  ∀ c : Command,
    (∀ i, decode c = some i → ∃ r ∈ opcodeTable, r.mnemonic = i.mnemonic ∧ c.word &&& r.mask = r.matchBits) ∧
    (∀ r ∈ opcodeTable, c.word &&& r.mask = r.matchBits → ∃ i, decode c = some i ∧ i.mnemonic = r.mnemonic) ∧
    ((∀ r ∈ opcodeTable, c.word &&& r.mask ≠ r.matchBits) → decode c = none)

/-- R73, the complete map of the command words, the mask and match of the `FVAL` rows, and one row per command. -/
def Obligations.CommandMapIsComplete : Prop :=
  (∀ k, decode ⟨0x00000000, k⟩ = some .nop) ∧
  (∀ k, decode ⟨0x10000000, k⟩ = some .hdr) ∧
  (∀ k, decode ⟨0x20000000, k⟩ = some .disp) ∧
  (∀ (k : KOperand) (sx : Bool) (off : BitVec 12) (wm1 : Six),
    decode ⟨fvalWordOf 0x0 sx off wm1, k⟩ = some (.fvalNone sx off wm1) ∧
    decode ⟨fvalWordOf 0x1 sx off wm1, k⟩ = some (.fvalAllOnes sx off wm1) ∧
    decode ⟨fvalWordOf 0x2 sx off wm1, k⟩ = some (.fvalEq sx off wm1 k) ∧
    decode ⟨fvalWordOf 0x3 sx off wm1, k⟩ = some (.fvalGe sx off wm1 k) ∧
    decode ⟨fvalWordOf 0x4 sx off wm1, k⟩ = some (.fvalGt sx off wm1 k) ∧
    decode ⟨fvalWordOf 0x5 sx off wm1, k⟩ = some (.fvalSabs sx off wm1 k) ∧
    decode ⟨fvalWordOf 0x6 sx off wm1, k⟩ = some (.fvalSpecial sx off wm1 k) ∧
    decode ⟨fvalWordOf 0x7 sx off wm1, k⟩ = some (.fvalFlag sx off wm1 (k.extractLsb' 0 12) (k.getLsbD 12)) ∧
    decode ⟨fvalWordOf 0x8 sx off wm1, k⟩ = some (.fvalText sx off wm1)) ∧
  (∀ c : Command, c.word ≠ 0x00000000 → c.word ≠ 0x10000000 → c.word ≠ 0x20000000 →
    (∀ (kind : BitVec 4) (sx : Bool) (off : BitVec 12) (wm1 : Six), kind.toNat ≤ 8 → c.word ≠ fvalWordOf kind sx off wm1) →
    decode c = none) ∧
  (∀ (kind : BitVec 4) (w : CommandWord), w &&& 0xFF7C0000 = fvalWordOf kind false 0 0 ↔
    ∃ (sx : Bool) (off : BitVec 12) (wm1 : Six), w = fvalWordOf kind sx off wm1) ∧
  opcodeTable.map OpcodeRow.mnemonic =
    ["NOP", "HDR", "DISP", "FVAL.NONE", "FVAL.ALLONES", "FVAL.EQ", "FVAL.GE", "FVAL.GT", "FVAL.SABS", "FVAL.SPECIAL",
     "FVAL.FLAG", "FVAL.TEXT"]

/-- R69: an illegal command is one with a reserved `op`, a reserved `kind` or a set reserved bit, and it performs STATUS <-
ILLEGAL_CMD with no other effect (but the RSP_VALID pulse of every command, 10_state.md R40). -/
def Obligations.IllegalCommandsAreTheReservedOnes : Prop :=
  (∀ c : Command, decode c = none ↔
    (4 ≤ c.word.toNat / 2 ^ 28 ∨
     (c.word.toNat / 2 ^ 28 = 3 ∧ 9 ≤ c.word.toNat / 2 ^ 24 % 16) ∨
     (c.word.toNat / 2 ^ 28 ≤ 2 ∧ c.word.toNat % 2 ^ 28 ≠ 0) ∨
     (c.word.toNat / 2 ^ 28 = 3 ∧ c.word.toNat / 2 ^ 18 % 32 ≠ 0))) ∧
  (∀ s : State, s.pins.rst = false → s.pins.cmdValid = true → decode s.pins.cmd = none →
    ∃ t, step s = .next t ∧ t.regs = { s.regs with status := 0xD, rspValid := true })

/-- K bits that an instruction does not use are ignored, never checked, and never make a command illegal (R67, R70). -/
def Obligations.UnusedKBitsAreIgnored : Prop :=
  ∀ (w : CommandWord) (k k' : KOperand),
    (∀ i, decode ⟨w, k⟩ = some i → k'.toNat % 2 ^ usedKBits i = k.toNat % 2 ^ usedKBits i → decode ⟨w, k'⟩ = some i) ∧
    (decode ⟨w, k⟩ = none → decode ⟨w, k'⟩ = none)

/-- Words of the spec's test vectors and programs (95_test_vectors.md) decode to the commands they are listed with. -/
def Obligations.ListedWordsDecode : Prop :=
  decode ⟨0x33000C89, 0x3FE⟩ = some (.fvalGe false 50 9 0x3FE) ∧
  decode ⟨0x35800F5B, 0x66FF300⟩ = some (.fvalSabs true 61 27 0x66FF300) ∧
  decode ⟨0x36002245, 0x3C⟩ = some (.fvalSpecial false 137 5 0x3C) ∧
  decode ⟨0x37000A87, 0x1029⟩ = some (.fvalFlag false 42 7 41 true) ∧
  decode ⟨0x3800003F, 0⟩ = some (.fvalText false 0 63) ∧
  decode ⟨0x33040C89, 1022⟩ = none ∧ decode ⟨0x39000000, 0⟩ = none ∧ decode ⟨0x10000001, 0⟩ = none

/-- R71: a line whose operands are in range assembles to the command the formula gives, a line with an operand out of range
does not assemble. -/
def Obligations.AssemblerFollowsEncodingFormula : Prop :=
  (∀ l : AsmLine, l.wf = false → l.assemble = none) ∧
  (∀ (kind : FieldKind) (signed : Bool) (off w : Nat) (k : Option Nat), (AsmLine.fval kind signed off w k).wf = true →
    ∃ c, (AsmLine.fval kind signed off w k).assemble = some [c] ∧ c.k.toNat = k.getD 0 ∧
      c.word.toNat = 3 * 2 ^ 28 + kind.code.toNat * 2 ^ 24 + signed.toNat * 2 ^ 23 + off * 2 ^ 6 + (w - 1)) ∧
  (∀ (signed : Bool) (off w foff pol : Nat), (AsmLine.flag signed off w foff pol).wf = true →
    ∃ c, (AsmLine.flag signed off w foff pol).assemble = some [c] ∧ c.k.toNat = foff + pol * 2 ^ 12 ∧
      c.word.toNat = 3 * 2 ^ 28 + 7 * 2 ^ 24 + signed.toNat * 2 ^ 23 + off * 2 ^ 6 + (w - 1)) ∧
  (∀ off n : Nat, (AsmLine.text off n).wf = true →
    ∃ c, (AsmLine.text off n).assemble = some [c] ∧ c.k.toNat = 0 ∧
      c.word.toNat = 3 * 2 ^ 28 + 8 * 2 ^ 24 + off * 2 ^ 6 + (n - 1)) ∧
  (∀ (cw : Nat) (k : Option Nat), (AsmLine.word cw k).wf = true →
    ∃ c, (AsmLine.word cw k).assemble = some [c] ∧ c.word.toNat = cw ∧ c.k.toNat = k.getD 0)

/-- R72, the expansions of the pseudo-commands. -/
def Obligations.PseudoCommandsExpand : Prop :=
  AsmLine.pseudoDecode.assemble = some [encode .hdr, encode .disp] ∧
  ∀ off w : Nat,
    (AsmLine.pseudoRaw off w).assemble = (AsmLine.fval .none false off w none).assemble ∧
    (AsmLine.pseudoNa off w).assemble = (AsmLine.fval .allOnes false off w none).assemble ∧
    (AsmLine.pseudoSraw off w).assemble = (AsmLine.fval .none true off w none).assemble

/-! ### Edges (70_reset_and_hazards.md) -/

/-- An edge that accepts a command that decodes to `i` is `exec i` on the state before it; around it the inputs move on to what
the host drives next (log 2). -/
def Obligations.StepRunsTheDecodedCommand : Prop :=
  ∀ (s : State) (i : Instr), s.pins.rst = false → s.pins.cmdValid = true → decode s.pins.cmd = some i →
    ∃ t u, exec i s = .next t ∧ step s = .next u ∧ u.regs = t.regs ∧ u.cfg = t.cfg ∧
      (s.later = [] → u.pins = { s.pins with rst := false, cmdValid := false } ∧ u.later = []) ∧
      (∀ p ps, s.later = p :: ps → u.pins = p ∧ u.later = ps)

/-- A command presented with `withFetchWord` is the one the next step runs, on the registers and payload of `s`. -/
def Obligations.PresentedWordRunsNext : Prop :=
  ∀ (s : State) (nbits w : Nat) (i : Instr), decodeTableWord nbits w = some i →
    ∃ t u, exec i (s.withFetchWord nbits w) = .next t ∧ step (s.withFetchWord nbits w) = .next u ∧ u.regs = t.regs ∧
      (s.withFetchWord nbits w).regs = s.regs ∧ (s.withFetchWord nbits w).pins.payload = s.pins.payload

/-- R121: an illegal command writes STATUS <- ILLEGAL_CMD and the RSP_VALID pulse and nothing else, whatever the payload
inputs are. -/
def Obligations.IllegalCommandWritesStatusOnly : Prop :=
  ∀ (s : State) (q : Payload), s.pins.rst = false → s.pins.cmdValid = true → decode s.pins.cmd = none →
    ∃ t, step (s.withPayload q) = .next t ∧ t.cfg = s.cfg ∧ t.regs = { s.regs with status := 0xD, rspValid := true }

/-- R150, R151: an edge with `rst` = 1 puts every register at its reset value, whatever the command inputs are, and leaves the
configuration. -/
def Obligations.ResetEdgeResetsEveryRegister : Prop :=
  ∀ s : State, s.pins.rst = true →
    ∃ t, step s = .next t ∧ t.cfg = s.cfg ∧
      t.regs = { status := 0x0, rspValid := false, hv := false, msgId := 0, repeatInd := 0, mmsi := 0, dv := false,
                 route := 0x00, subidx := 0, dac := 0, fi := 0, fvalue := 0, fmiss := false, fspec := false }

/-- R157: an edge without a command and without reset makes RSP_VALID 0 and keeps every other register. -/
def Obligations.IdleEdgeHoldsRegisters : Prop :=
  ∀ s : State, s.pins.rst = false → s.pins.cmdValid = false →
    ∃ t, step s = .next t ∧ t.regs = { s.regs with rspValid := false } ∧ t.cfg = s.cfg

/-- R156: RSP_VALID is 1 after every edge that accepts a command and 0 after every edge that does not; when it is 1, the
registers are those of the command accepted at that edge. -/
def Obligations.RspValidMarksAcceptedEdges : Prop :=
  ∀ s t : State, step s = .next t →
    (t.regs.rspValid = true ↔ s.pins.rst = false ∧ s.pins.cmdValid = true) ∧
    (∀ i, t.regs.rspValid = true → decode s.pins.cmd = some i → ∃ u, exec i s = .next u ∧ t.regs = u.regs)

/-- The HDDU never traps, halts or stalls: every command in every state, and every edge, answers a next state (R134, R154). -/
def Obligations.EveryCommandAndEdgeCompletes : Prop :=
  (∀ (i : Instr) (s : State), ∃ t, exec i s = .next t) ∧ ∀ s : State, ∃ t, step s = .next t

/-- 10_state.md R39: no command and no reset changes the configuration. -/
def Obligations.ConfigurationIsConstant : Prop :=
  ∀ s t : State, step s = .next t → t.cfg = s.cfg

/-- The reset state has the registers of R151. -/
def Obligations.ResetStateRegisters : Prop :=
  State.reset.regs.status = 0x0 ∧ State.reset.regs.rspValid = false ∧ State.reset.regs.hv = false ∧
  State.reset.regs.msgId = 0 ∧ State.reset.regs.repeatInd = 0 ∧ State.reset.regs.mmsi = 0 ∧ State.reset.regs.dv = false ∧
  State.reset.regs.route = 0x00 ∧ State.reset.regs.subidx = 0 ∧ State.reset.regs.dac = 0 ∧ State.reset.regs.fi = 0 ∧
  State.reset.regs.fvalue = 0 ∧ State.reset.regs.fmiss = false ∧ State.reset.regs.fspec = false

/-- The reset state meets the invariant. Its configuration and its inputs are the model's choice (log 3, log 4). -/
def Obligations.ResetStateMeetsInvariant : Prop := State.reset.Inv

/-- Every edge keeps the invariant: only produced statuses and used route codes, a header only with HV = 1, a verdict only with
DV = 1 and then the one R86 gives the latched id, no value in a missing field, an admissible configuration, canonical payload
bits. -/
def Obligations.EveryEdgeKeepsInvariant : Prop :=
  ∀ s t : State, s.Inv → step s = .next t → t.Inv

/-- A `DISP` at the edge after the `HDR` it belongs to sees that header, with no gap and no hazard (R155, R159). -/
def Obligations.DispRightAfterHdrSeesHeader : Prop :=
  ∀ (s : State) (p : Pins) (ps : List Pins), s.pins.rst = false → s.pins.cmdValid = true → s.pins.cmd.word = 0x10000000 →
    readable s.pins.payload → 38 ≤ usable s.pins.payload →
    s.later = p :: ps → p.rst = false → p.cmdValid = true → p.cmd.word = 0x20000000 →
    ∃ t u, step s = .next t ∧ step t = .next u ∧ t.regs.rspValid = true ∧ u.regs.rspValid = true ∧ u.regs.hv = true ∧
      u.regs.status ≠ 0xC ∧ u.regs.msgId.toNat = ubits s.pins.payload 0 6 ∧
      u.regs.mmsi.toNat = ubits s.pins.payload 8 30 ∧
      (readable p.payload → ∀ code, (ubits s.pins.payload 0 6, code) ∈ routedIds → u.regs.route = code ∧ u.regs.dv = true)

/-- The `pb_*` request lines are those of the cycle's reads, `cmd_ready` is 1, and every other output is its register
(10_state.md R22, R154). -/
def Obligations.OutputsShowRegisters : Prop :=
  ∀ s : State, s.outputs =
    ⟨s.requests.map ReadRequest.lines, true, s.regs.rspValid, s.regs.status, s.regs.hv, s.regs.msgId, s.regs.repeatInd,
     s.regs.mmsi, s.regs.dv, s.regs.route, s.regs.subidx, s.regs.dac, s.regs.fi, s.regs.fvalue, s.regs.fmiss, s.regs.fspec⟩

/-- 10_state.md R22 and 20_memory.md R46: for each read of the command on the pins, in order, the request lines show its width on
7 bits and its offset on 13 bits, and `pb_data` answers the field on 64 bits; without an accepted legal command there is none. An
offset that needs more than 13 bits is left out (log 19); with a 10-bit `char_count` no read has one. -/
def Obligations.PbPortCarriesReads : Prop :=
  (∀ (s : State) (i : Instr), s.pins.rst = false → s.pins.cmdValid = true → decode s.pins.cmd = some i →
    s.outputs.pb.length = (instrReads i s).length ∧ s.pbData.length = (instrReads i s).length ∧
    ∀ (n : Nat) (r : ReadRequest), (instrReads i s)[n]? = some r →
      ∃ l d, s.outputs.pb[n]? = some l ∧ s.pbData[n]? = some d ∧ l.pbW.toNat = r.w ∧
        (r.off < 2 ^ 13 ∨ s.pins.payload.charCount < 1024 → l.pbOff.toNat = r.off) ∧
        d.toNat = ubits s.pins.payload r.off r.w) ∧
  (∀ s : State, s.pins.rst = true ∨ s.pins.cmdValid = false ∨ decode s.pins.cmd = none →
    s.outputs.pb = [] ∧ s.pbData = [])

/-- 10_state.md R22, R38: the payload reaches the registers through `pb_data` alone. Another payload of the same shape that gives
the same answers to the cycle's reads gives the same registers after the edge. -/
def Obligations.EdgeTakesPayloadThroughPbData : Prop :=
  ∀ (s t : State) (q : Payload), sameShape s.pins.payload q → (s.withPayload q).pbData = s.pbData → step s = .next t →
    ∃ u, step (s.withPayload q) = .next u ∧ u.regs = t.regs

/-! ### The payload (20_memory.md) -/

/-- R46: `ubits` is the sum over the field's bits, the first the most significant, and is below `2^w`. -/
def Obligations.UbitsIsBigEndianSum : Prop :=
  ∀ (p : Payload) (off w : Nat),
    ubits p off w = (Finset.range w).sum (fun i => (pbit p (off + i)).toNat * 2 ^ (w - 1 - i)) ∧ ubits p off w < 2 ^ w

/-- R48: every read a command makes is of an in-bounds field, of 1 to 64 bits, and a command that ends with INSUFFICIENT_BITS
makes no read. With a 10-bit `char_count` the offset fits the 13 bits of `pb_off` (R46). -/
def Obligations.ReadsStayInBounds : Prop :=
  (∀ (i : Instr) (s : State), ∀ r ∈ instrReads i s,
    1 ≤ r.w ∧ r.w ≤ 64 ∧ (r.off : Int) + (r.w : Int) ≤ (s.pins.payload.charCount : Int) * 6 - (s.pins.payload.padBits.toNat : Int) ∧
    (s.pins.payload.charCount < 1024 → r.off < 2 ^ 13)) ∧
  (∀ (i : Instr) (s t : State), exec i s = .next t → t.regs.status = 0x9 → instrReads i s = [])

/-- A command's outcome depends on no payload bit but those it requests: another payload of the same shape that agrees on them
gives the same registers. -/
def Obligations.CommandsDependOnRequestedBitsOnly : Prop :=
  ∀ (i : Instr) (s t : State) (q : Payload), agreeOn (instrReads i s) s.pins.payload q → exec i s = .next t →
    exec i (s.withPayload q) = .next (t.withPayload q)

/-- No edge's result depends on a pad bit or on a bit past the buffer (R48, 93_implementation_defined.md I7). -/
def Obligations.BitsPastUsableNeverMatter : Prop :=
  ∀ (s t : State) (q : Payload), sameShape s.pins.payload q →
    (∀ k : Nat, (k : Int) < usable s.pins.payload → pbit q k = pbit s.pins.payload k) → step s = .next t →
    ∃ u, step (s.withPayload q) = .next u ∧ u.regs = t.regs

/-- 10_state.md R40, the write matrix: the registers a command does not write keep their values, HDR writes zeros to the
dispatch registers, every command makes the RSP_VALID pulse, and no command changes the payload, the other inputs or the
configuration. -/
def Obligations.WriteMatrixFrame : Prop :=
  (∀ (i : Instr) (s : State), ∃ t, exec i s = .next t ∧
    t.cfg = s.cfg ∧ t.pins = s.pins ∧ t.later = s.later ∧ (∀ k, pbit t.pins.payload k = pbit s.pins.payload k) ∧
    t.regs.rspValid = true ∧ t.regs.status ∈ statusesOf i ∧
    (i ≠ .hdr → sameHeader s.regs t.regs) ∧
    (i = .hdr → dispatchCleared 0x00 t.regs) ∧
    (i ≠ .hdr → i ≠ .disp → sameDispatch s.regs t.regs) ∧
    (isFval i = false → sameField s.regs t.regs)) ∧
  (∀ s : State, s.pins.rst = false → s.pins.cmdValid = true → decode s.pins.cmd = none →
    ∃ t, step s = .next t ∧ t.cfg = s.cfg ∧ t.regs.rspValid = true ∧ t.regs.status = 0xD ∧ sameHeader s.regs t.regs ∧
      sameDispatch s.regs t.regs ∧ sameField s.regs t.regs)

/-- What a command writes depends on the configuration, the payload inputs and, for `DISP`, HV and MSG_ID, and on no other
register: no status is sticky and FVAL needs no header (00_scope.md R15, 60_exceptions.md R135, 42_field_validate.md R100). -/
def Obligations.ResultsDependOnHeaderLatchOnly : Prop :=
  ∀ (i : Instr) (s t u : State) (r : Regs), r.hv = s.regs.hv → r.msgId = s.regs.msgId →
    exec i s = .next t → exec i { s with regs := r } = .next u →
    u.regs.status = t.regs.status ∧ u.regs.rspValid = t.regs.rspValid ∧
    (i = .hdr → sameHeader t.regs u.regs ∧ sameDispatch t.regs u.regs) ∧
    (i = .disp → sameDispatch t.regs u.regs) ∧
    (isFval i = true → exec i { s with regs := { r with hv := !r.hv } } = .next { u with regs := { u.regs with hv := !u.regs.hv } } ∧
      sameField t.regs u.regs)

/-! ### Statuses (60_exceptions.md) -/

/-- R133: the status of every command, by the fixed order of its checks; an illegal command is ILLEGAL_CMD before everything
else. -/
def Obligations.StatusFollowsPriority : Prop :=
  (∀ (i : Instr) (s : State), ∃ t, exec i s = .next t ∧ t.regs.status = statusPriority i s) ∧
  (∀ s : State, s.pins.rst = false → s.pins.cmdValid = true → decode s.pins.cmd = none →
    ∃ t, step s = .next t ∧ t.regs.status = 0xD)

/-- R131: a hard status (bit 3 of the code) leaves the failure values in the operation's result registers, a soft one a valid
result. -/
def Obligations.HardStatusLeavesFailureValues : Prop :=
  ∀ (i : Instr) (s t : State), exec i s = .next t →
    (t.regs.status.getLsbD 3 = true →
      (i = .hdr → t.regs.hv = false ∧ t.regs.msgId = 0 ∧ t.regs.repeatInd = 0 ∧ t.regs.mmsi = 0 ∧ dispatchCleared 0x00 t.regs) ∧
      (i = .disp → dispatchCleared (if t.regs.status = 0x8 then 0x0D else 0x00) t.regs) ∧
      (isFval i = true → t.regs.fvalue = 0 ∧ t.regs.fmiss = false ∧ t.regs.fspec = false)) ∧
    (t.regs.status.getLsbD 3 = false →
      (i = .hdr → t.regs.hv = true) ∧ (i = .disp → t.regs.dv = true ∧ t.regs.route ≠ 0x00) ∧
      (i ≠ .disp → t.regs.status = 0x0)) ∧
    (isFval i = true → t.regs.fmiss = true → t.regs.status = 0x0)

/-- R120: `NOP` is the word 0 with any K, sets STATUS to OK and RSP_VALID, and changes nothing else. -/
def Obligations.NopWritesStatusOnly : Prop :=
  (∀ k, decode ⟨0x00000000, k⟩ = some .nop) ∧
  ∀ s : State, exec .nop s = .next { s with regs := { s.regs with status := 0x0, rspValid := true } }

/-! ### HDR (40_header.md) -/

/-- R80: `HDR` latches message id, repeat indicator and MMSI from a readable payload of at least 7 characters and 38 usable bits,
else it makes the failure writes with the first status that applies. -/
def Obligations.HdrLatchesHeaderOrFails : Prop :=
  (∀ k, decode ⟨0x10000000, k⟩ = some .hdr) ∧
  ∀ s : State,
    (readable s.pins.payload → 7 ≤ s.pins.payload.charCount →
      38 ≤ (s.pins.payload.charCount : Int) * 6 - (s.pins.payload.padBits.toNat : Int) →
      ∃ t, exec .hdr s = .next t ∧ t.cfg = s.cfg ∧ t.pins = s.pins ∧ t.later = s.later ∧
        t.regs.status = 0x0 ∧ t.regs.rspValid = true ∧ t.regs.hv = true ∧
        t.regs.msgId.toNat = ubits s.pins.payload 0 6 ∧ t.regs.repeatInd.toNat = ubits s.pins.payload 6 2 ∧
        t.regs.mmsi.toNat = ubits s.pins.payload 8 30 ∧ dispatchCleared 0x00 t.regs ∧ sameField s.regs t.regs) ∧
    (¬ (readable s.pins.payload ∧ 7 ≤ s.pins.payload.charCount ∧
        38 ≤ (s.pins.payload.charCount : Int) * 6 - (s.pins.payload.padBits.toNat : Int)) →
      exec .hdr s = .next { s with regs := { s.regs with
        status := if 5 < s.pins.payload.padBits.toNat then 0xB else if s.pins.payload.armorErr = true then 0xA else 0x9,
        rspValid := true, hv := false, msgId := 0, repeatInd := 0, mmsi := 0, dv := false, route := 0x00, subidx := 0,
        dac := 0, fi := 0 } })

/-- R81: the 38-bit condition implies the 7-character one, and the exact edges of `HDR`'s length check. -/
def Obligations.HdrLengthEdges : Prop :=
  ∀ s : State, s.pins.payload.armorErr = false →
    (s.pins.payload.padBits.toNat ≤ 5 → 38 ≤ usable s.pins.payload → 7 ≤ s.pins.payload.charCount) ∧
    (s.pins.payload.charCount = 7 → s.pins.payload.padBits.toNat ≤ 4 →
      usable s.pins.payload = 42 - (s.pins.payload.padBits.toNat : Int) ∧ 38 ≤ usable s.pins.payload ∧
      ∃ t, exec .hdr s = .next t ∧ t.regs.status = 0x0 ∧ t.regs.hv = true) ∧
    (s.pins.payload.charCount = 7 → s.pins.payload.padBits = 5 →
      usable s.pins.payload = 37 ∧ ∃ t, exec .hdr s = .next t ∧ t.regs.status = 0x9 ∧ t.regs.hv = false) ∧
    (s.pins.payload.charCount = 6 → s.pins.payload.padBits = 0 →
      usable s.pins.payload = 36 ∧ ∃ t, exec .hdr s = .next t ∧ t.regs.status = 0x9 ∧ t.regs.hv = false) ∧
    (s.pins.payload.charCount = 0 → s.pins.payload.padBits = 3 →
      usable s.pins.payload = -3 ∧ ∃ t, exec .hdr s = .next t ∧ t.regs.status = 0x9 ∧ t.regs.hv = false)

/-- R84 and 10_state.md R29: `HDR`, whatever its outcome, invalidates the previous verdict and leaves the field registers. -/
def Obligations.HdrInvalidatesVerdict : Prop :=
  ∀ s : State, ∃ t, exec .hdr s = .next t ∧ t.regs.dv = false ∧ t.regs.route = 0x00 ∧ t.regs.subidx = 0 ∧
    t.regs.dac = 0 ∧ t.regs.fi = 0 ∧ t.regs.fvalue = s.regs.fvalue ∧ t.regs.fmiss = s.regs.fmiss ∧
    t.regs.fspec = s.regs.fspec

/-- R82, R83: `HDR` validates no header field: the payload bits have no part in its status. -/
def Obligations.HdrAcceptsAnyHeaderContents : Prop :=
  ∀ (s t u : State) (q : Payload), sameShape s.pins.payload q → exec .hdr s = .next t →
    exec .hdr (s.withPayload q) = .next u → u.regs.status = t.regs.status ∧ u.regs.hv = t.regs.hv

/-! ### DISP (41_dispatch.md) -/

/-- R85, R133: without a header `DISP` ends with NO_HEADER and the failure writes, whatever the payload inputs are. -/
def Obligations.DispWithoutHeader : Prop :=
  ∀ (s : State) (q : Payload), s.regs.hv = false →
    exec .disp (s.withPayload q) = .next { s.withPayload q with regs := { s.regs with
      status := 0xC, rspValid := true, dv := false, route := 0x00, subidx := 0, dac := 0, fi := 0 } }

/-- R86: every message id has exactly one route code: the routed ids theirs, ids 6 and 8 the common or the sub-type's, ids 15
and 19 UNSUPPORTED, the others UNKNOWN; NONE is the route of no id. -/
def Obligations.DispRouteTable : Prop :=
  ∀ s : State, s.regs.hv = true → readable s.pins.payload →
    (s.regs.msgId = 6 → (s.cfg.dacfiOff6 : Int) + 16 ≤ usable s.pins.payload) →
    (s.regs.msgId = 8 → (s.cfg.dacfiOff8 : Int) + 16 ≤ usable s.pins.payload) →
    ∃ t, exec .disp s = .next t ∧ t.regs.route ≠ 0x00 ∧ ¬ (0x19 ≤ t.regs.route.toNat ∧ t.regs.route.toNat ≤ 0x3E) ∧
      (∀ code, (s.regs.msgId.toNat, code) ∈ routedIds → t.regs.route = code) ∧
      (s.regs.msgId = 6 → t.regs.route = 0x04 ∨ t.regs.route = 0x05) ∧
      (s.regs.msgId = 8 → t.regs.route = 0x07 ∨ t.regs.route = 0x08) ∧
      (s.regs.msgId = 15 ∨ s.regs.msgId = 19 → t.regs.route = 0x0D) ∧
      (unknownId s.regs.msgId.toNat → t.regs.route = 0x3F)

/-- R85, R86: a routed id ends with OK, its route, DV = 1 and zeros in SUBIDX, DAC and FI, with no check of the payload's
length. -/
def Obligations.DispRoutesCatalogIds : Prop :=
  (∀ k, decode ⟨0x20000000, k⟩ = some .disp) ∧
  ∀ (s : State) (code : Six), s.regs.hv = true → readable s.pins.payload → (s.regs.msgId.toNat, code) ∈ routedIds →
    exec .disp s = .next { s with regs := { s.regs with
      status := 0x0, rspValid := true, dv := true, route := code, subidx := 0, dac := 0, fi := 0 } }

/-- R91: ids 15 and 19 end with the hard status UNSUPPORTED_TYPE, ROUTE = 0x0D and DV = 0. -/
def Obligations.DispUnsupportedIds : Prop :=
  ∀ s : State, s.regs.hv = true → readable s.pins.payload → (s.regs.msgId = 15 ∨ s.regs.msgId = 19) →
    exec .disp s = .next { s with regs := { s.regs with
      status := 0x8, rspValid := true, dv := false, route := 0x0D, subidx := 0, dac := 0, fi := 0 } }

/-- R92: ids 0 and 28 to 63 end with the soft status UNKNOWN_TYPE, ROUTE = 0x3F and DV = 1; the header registers stay. -/
def Obligations.DispUnknownIds : Prop :=
  ∀ s : State, s.regs.hv = true → readable s.pins.payload → unknownId s.regs.msgId.toNat →
    exec .disp s = .next { s with regs := { s.regs with
      status := 0x1, rspValid := true, dv := true, route := 0x3F, subidx := 0, dac := 0, fi := 0 } }

/-- R88: a payload too short for the DAC/FI peek ends `DISP` with INSUFFICIENT_BITS and the failure writes. -/
def Obligations.DispPeekNeedsSixteenBits : Prop :=
  ∀ s : State, s.regs.hv = true → readable s.pins.payload →
    (s.regs.msgId = 6 ∧ usable s.pins.payload < (s.cfg.dacfiOff6 : Int) + 16 ∨
     s.regs.msgId = 8 ∧ usable s.pins.payload < (s.cfg.dacfiOff8 : Int) + 16) →
    exec .disp s = .next { s with regs := { s.regs with
      status := 0x9, rspValid := true, dv := false, route := 0x00, subidx := 0, dac := 0, fi := 0 } }

/-- R89: a known sub-type ends with OK, the sub-type's route, the peeked pair, and in SUBIDX the index of the first entry that
equals the pair. -/
def Obligations.DispKnownSubtypes : Prop :=
  ∀ (s : State) (n : Nat) (e : SubType), s.regs.hv = true → readable s.pins.payload → n < 64 →
    (s.regs.msgId = 6 → (s.cfg.dacfiOff6 : Int) + 16 ≤ usable s.pins.payload → peeks s.pins.payload s.cfg.dacfiOff6 e →
      s.cfg.sub6[n]? = some e → (∀ m, m < n → s.cfg.sub6[m]? ≠ some e) →
      exec .disp s = .next { s with regs := { s.regs with
        status := 0x0, rspValid := true, dv := true, route := 0x05, subidx := BitVec.ofNat 6 n, dac := e.1, fi := e.2 } }) ∧
    (s.regs.msgId = 8 → (s.cfg.dacfiOff8 : Int) + 16 ≤ usable s.pins.payload → peeks s.pins.payload s.cfg.dacfiOff8 e →
      s.cfg.sub8[n]? = some e → (∀ m, m < n → s.cfg.sub8[m]? ≠ some e) →
      exec .disp s = .next { s with regs := { s.regs with
        status := 0x0, rspValid := true, dv := true, route := 0x08, subidx := BitVec.ofNat 6 n, dac := e.1, fi := e.2 } })

/-- R85, R89: a pair that no entry equals ends with UNKNOWN_SUBTYPE, the common route, the peeked pair and SUBIDX = 0. -/
def Obligations.DispUnknownSubtypes : Prop :=
  ∀ (s : State) (e : SubType), s.regs.hv = true → readable s.pins.payload →
    (s.regs.msgId = 6 → (s.cfg.dacfiOff6 : Int) + 16 ≤ usable s.pins.payload → peeks s.pins.payload s.cfg.dacfiOff6 e →
      e ∉ s.cfg.sub6 →
      exec .disp s = .next { s with regs := { s.regs with
        status := 0x2, rspValid := true, dv := true, route := 0x04, subidx := 0, dac := e.1, fi := e.2 } }) ∧
    (s.regs.msgId = 8 → (s.cfg.dacfiOff8 : Int) + 16 ≤ usable s.pins.payload → peeks s.pins.payload s.cfg.dacfiOff8 e →
      e ∉ s.cfg.sub8 →
      exec .disp s = .next { s with regs := { s.regs with
        status := 0x2, rspValid := true, dv := true, route := 0x07, subidx := 0, dac := e.1, fi := e.2 } })

/-- R90: under every admissible configuration the explicitly unsupported sub-types route to the common fallback with
UNKNOWN_SUBTYPE. -/
def Obligations.DispExplicitlyUnsupportedSubtypes : Prop :=
  ∀ (s : State) (e : SubType), s.cfg.wf = true → s.regs.hv = true → readable s.pins.payload →
    (s.regs.msgId = 6 → (s.cfg.dacfiOff6 : Int) + 16 ≤ usable s.pins.payload → peeks s.pins.payload s.cfg.dacfiOff6 e →
      (e = (1, 12) ∨ e = (1, 28) ∨ e = (1, 30)) →
      e ∉ s.cfg.sub6 ∧ exec .disp s = .next { s with regs := { s.regs with
        status := 0x2, rspValid := true, dv := true, route := 0x04, subidx := 0, dac := e.1, fi := e.2 } }) ∧
    (s.regs.msgId = 8 → (s.cfg.dacfiOff8 : Int) + 16 ≤ usable s.pins.payload → peeks s.pins.payload s.cfg.dacfiOff8 e →
      (e = (1, 21) ∨ e = (1, 40) ∨ e = (200, 23)) →
      e ∉ s.cfg.sub8 ∧ exec .disp s = .next { s with regs := { s.regs with
        status := 0x2, rspValid := true, dv := true, route := 0x07, subidx := 0, dac := e.1, fi := e.2 } })

/-- R96: `DISP` issued again on the same inputs recomputes the same verdict and changes nothing. -/
def Obligations.DispIsRepeatable : Prop :=
  ∀ s t : State, exec .disp s = .next t → exec .disp t = .next t

/-- R93: for every id but 6 and 8 `DISP` reads no payload bit and performs no bounds check. -/
def Obligations.DispReadsPayloadForTwoIdsOnly : Prop :=
  ∀ (s t : State) (q : Payload), s.regs.msgId ≠ 6 → s.regs.msgId ≠ 8 → readable s.pins.payload → readable q →
    instrReads .disp s = [] ∧
    (exec .disp s = .next t → exec .disp (s.withPayload q) = .next (t.withPayload q) ∧ t.regs.status ≠ 0x9)

/-! ### FVAL (42_field_validate.md) -/

/-- R101: `FVAL.NONE` is the plain read. -/
def Obligations.FvalNoneReadsField : Prop :=
  ∀ (sx : Bool) (off : BitVec 12) (wm1 : Six),
    (∀ k, decode ⟨fvalWordOf 0x0 sx off wm1, k⟩ = some (.fvalNone sx off wm1)) ∧
    ∀ (s : State) (raw : Nat), readable s.pins.payload →
      (off.toNat : Int) + ((wm1.toNat : Int) + 1) ≤ usable s.pins.payload →
      raw = ubits s.pins.payload off.toNat (wm1.toNat + 1) →
      exec (.fvalNone sx off wm1) s = .next { s with regs := { s.regs with
        status := 0x0, rspValid := true, fmiss := false, fspec := false,
        fvalue := shownField sx (wm1.toNat + 1) raw } }

/-- R102: `FVAL.ALLONES`, missing iff raw = 2^w - 1. -/
def Obligations.FvalAllOnesSentinel : Prop :=
  ∀ (sx : Bool) (off : BitVec 12) (wm1 : Six),
    (∀ k, decode ⟨fvalWordOf 0x1 sx off wm1, k⟩ = some (.fvalAllOnes sx off wm1)) ∧
    ∀ (s : State) (raw : Nat), readable s.pins.payload →
      (off.toNat : Int) + ((wm1.toNat : Int) + 1) ≤ usable s.pins.payload →
      raw = ubits s.pins.payload off.toNat (wm1.toNat + 1) →
      exec (.fvalAllOnes sx off wm1) s = .next { s with regs := { s.regs with
        status := 0x0, rspValid := true, fmiss := decide (raw + 1 = 2 ^ (wm1.toNat + 1)), fspec := false,
        fvalue := if raw + 1 = 2 ^ (wm1.toNat + 1) then 0 else shownField sx (wm1.toNat + 1) raw } }

/-- R103: `FVAL.EQ`, missing iff raw = K. -/
def Obligations.FvalEqSentinel : Prop :=
  ∀ (sx : Bool) (off : BitVec 12) (wm1 : Six) (k : KOperand),
    decode ⟨fvalWordOf 0x2 sx off wm1, k⟩ = some (.fvalEq sx off wm1 k) ∧
    ∀ (s : State) (raw : Nat), readable s.pins.payload →
      (off.toNat : Int) + ((wm1.toNat : Int) + 1) ≤ usable s.pins.payload →
      raw = ubits s.pins.payload off.toNat (wm1.toNat + 1) →
      exec (.fvalEq sx off wm1 k) s = .next { s with regs := { s.regs with
        status := 0x0, rspValid := true, fmiss := decide (raw = k.toNat), fspec := false,
        fvalue := if raw = k.toNat then 0 else shownField sx (wm1.toNat + 1) raw } }

/-- R104: `FVAL.GE`, missing iff raw >= K, unsigned. -/
def Obligations.FvalGeSentinel : Prop :=
  ∀ (sx : Bool) (off : BitVec 12) (wm1 : Six) (k : KOperand),
    decode ⟨fvalWordOf 0x3 sx off wm1, k⟩ = some (.fvalGe sx off wm1 k) ∧
    ∀ (s : State) (raw : Nat), readable s.pins.payload →
      (off.toNat : Int) + ((wm1.toNat : Int) + 1) ≤ usable s.pins.payload →
      raw = ubits s.pins.payload off.toNat (wm1.toNat + 1) →
      exec (.fvalGe sx off wm1 k) s = .next { s with regs := { s.regs with
        status := 0x0, rspValid := true, fmiss := decide (raw ≥ k.toNat), fspec := false,
        fvalue := if raw ≥ k.toNat then 0 else shownField sx (wm1.toNat + 1) raw } }

/-- R105: `FVAL.GT`, missing iff raw > K, unsigned. -/
def Obligations.FvalGtSentinel : Prop :=
  ∀ (sx : Bool) (off : BitVec 12) (wm1 : Six) (k : KOperand),
    decode ⟨fvalWordOf 0x4 sx off wm1, k⟩ = some (.fvalGt sx off wm1 k) ∧
    ∀ (s : State) (raw : Nat), readable s.pins.payload →
      (off.toNat : Int) + ((wm1.toNat : Int) + 1) ≤ usable s.pins.payload →
      raw = ubits s.pins.payload off.toNat (wm1.toNat + 1) →
      exec (.fvalGt sx off wm1 k) s = .next { s with regs := { s.regs with
        status := 0x0, rspValid := true, fmiss := decide (raw > k.toNat), fspec := false,
        fvalue := if raw > k.toNat then 0 else shownField sx (wm1.toNat + 1) raw } }

/-- R106: `FVAL.SABS`, missing iff the absolute value of the two's-complement reading exceeds K, with no overflow. -/
def Obligations.FvalSabsBound : Prop :=
  ∀ (sx : Bool) (off : BitVec 12) (wm1 : Six) (k : KOperand),
    decode ⟨fvalWordOf 0x5 sx off wm1, k⟩ = some (.fvalSabs sx off wm1 k) ∧
    ∀ (s : State) (raw : Nat), readable s.pins.payload →
      (off.toNat : Int) + ((wm1.toNat : Int) + 1) ≤ usable s.pins.payload →
      raw = ubits s.pins.payload off.toNat (wm1.toNat + 1) →
      exec (.fvalSabs sx off wm1 k) s = .next { s with regs := { s.regs with
        status := 0x0, rspValid := true, fmiss := decide ((signedOf (wm1.toNat + 1) raw).natAbs > k.toNat), fspec := false,
        fvalue := if (signedOf (wm1.toNat + 1) raw).natAbs > k.toNat then 0 else shownField sx (wm1.toNat + 1) raw } }

/-- R107: `FVAL.SPECIAL`, never missing, special iff raw >= K, the raw value surfaced either way. -/
def Obligations.FvalSpecialBand : Prop :=
  ∀ (sx : Bool) (off : BitVec 12) (wm1 : Six) (k : KOperand),
    decode ⟨fvalWordOf 0x6 sx off wm1, k⟩ = some (.fvalSpecial sx off wm1 k) ∧
    ∀ (s : State) (raw : Nat), readable s.pins.payload →
      (off.toNat : Int) + ((wm1.toNat : Int) + 1) ≤ usable s.pins.payload →
      raw = ubits s.pins.payload off.toNat (wm1.toNat + 1) →
      exec (.fvalSpecial sx off wm1 k) s = .next { s with regs := { s.regs with
        status := 0x0, rspValid := true, fmiss := false, fspec := decide (raw ≥ k.toNat),
        fvalue := shownField sx (wm1.toNat + 1) raw } }

/-- R108: `FVAL.FLAG`, missing iff the payload bit K[11:0] equals K[12]; a flag bit at or past U ends the command with
INSUFFICIENT_BITS. -/
def Obligations.FvalFlagBit : Prop :=
  ∀ (sx : Bool) (off : BitVec 12) (wm1 : Six) (foff : BitVec 12) (pol : Bool) (s : State) (raw : Nat),
    readable s.pins.payload → (off.toNat : Int) + ((wm1.toNat : Int) + 1) ≤ usable s.pins.payload →
    raw = ubits s.pins.payload off.toNat (wm1.toNat + 1) →
    (∀ k, k.toNat % 2 ^ 13 = foff.toNat + pol.toNat * 2 ^ 12 →
      decode ⟨fvalWordOf 0x7 sx off wm1, k⟩ = some (.fvalFlag sx off wm1 foff pol)) ∧
    ((foff.toNat : Int) < usable s.pins.payload →
      exec (.fvalFlag sx off wm1 foff pol) s = .next { s with regs := { s.regs with
        status := 0x0, rspValid := true, fmiss := decide (pbit s.pins.payload foff.toNat = pol), fspec := false,
        fvalue := if pbit s.pins.payload foff.toNat = pol then 0 else shownField sx (wm1.toNat + 1) raw } }) ∧
    (usable s.pins.payload ≤ (foff.toNat : Int) →
      exec (.fvalFlag sx off wm1 foff pol) s = .next { s with regs := { s.regs with
        status := 0x9, rspValid := true, fmiss := false, fspec := false, fvalue := 0 } })

/-- R109: `FVAL.TEXT`, missing iff every one of the n 6-bit characters is the padding character; FVALUE and FSPEC are 0, and
sx and K are ignored. -/
def Obligations.FvalTextAllPadding : Prop :=
  ∀ (sx : Bool) (off : BitVec 12) (wm1 : Six),
    (∀ k, decode ⟨fvalWordOf 0x8 sx off wm1, k⟩ = some (.fvalText sx off wm1)) ∧
    ∀ (s : State) (n : Nat), n = wm1.toNat + 1 → readable s.pins.payload →
      (off.toNat : Int) + 6 * (n : Int) ≤ usable s.pins.payload →
      exec (.fvalText sx off wm1) s = .next { s with regs := { s.regs with
        status := 0x0, rspValid := true,
        fmiss := decide (∀ j ∈ List.range n, ubits s.pins.payload (off.toNat + 6 * j) 6 = s.cfg.padCode.toNat),
        fspec := false, fvalue := 0 } }

/-- R100: an `FVAL` whose field, text or flag bit reaches past U ends with INSUFFICIENT_BITS and the failure writes, and
writes nothing else. -/
def Obligations.FvalOutOfBounds : Prop :=
  ∀ (i : Instr) (s : State), isFval i = true → readable s.pins.payload → usable s.pins.payload < (fvalReach i : Int) →
    exec i s = .next { s with regs := { s.regs with
      status := 0x9, rspValid := true, fvalue := 0, fmiss := false, fspec := false } }

/-- 30_encoding.md R64: `sx` has no effect on the verdict of any kind, and none at all on `FVAL.TEXT`. -/
def Obligations.SxNeverChangesVerdict : Prop :=
  ∀ (b : Bool) (i : Instr) (s t : State), exec i s = .next t →
    ∃ u, exec (withSx b i) s = .next u ∧ u.regs.status = t.regs.status ∧ u.regs.fmiss = t.regs.fmiss ∧
      u.regs.fspec = t.regs.fspec ∧ (i.mnemonic = "FVAL.TEXT" → u = t)

/-- R110: a missing verdict aborts nothing: STATUS is OK, FVALUE is 0, and every register but the field registers, STATUS and
RSP_VALID is unchanged. -/
def Obligations.MissingAbortsNothing : Prop :=
  ∀ (i : Instr) (s t : State), isFval i = true → exec i s = .next t → t.regs.fmiss = true →
    t.regs.status = 0x0 ∧ t.regs.fvalue = 0 ∧ t.regs.fspec = false ∧ sameHeader s.regs t.regs ∧ sameDispatch s.regs t.regs
end

