-- ==== Sys2Proof/Laws/Encoding.lean ====
section
/-! SUPPORT. The fields of the words the encoder writes (30_encoding.md R61): a word as a number, then each field of it. -/

namespace Sys2Proof

/-- Concatenation as arithmetic. -/
theorem toNat_append_add {n m : Nat} (x : BitVec n) (y : BitVec m) : (x ++ y).toNat = x.toNat * 2 ^ m + y.toNat := by
  rw [BitVec.toNat_append, ← Nat.shiftLeft_add_eq_or_of_lt y.isLt, Nat.shiftLeft_eq]

/-- A bit run of a word as arithmetic. -/
theorem toNat_field {n : Nat} (w : BitVec n) (lo len : Nat) : (w.extractLsb' lo len).toNat = w.toNat / 2 ^ lo % 2 ^ len := by
  rw [BitVec.extractLsb'_toNat, Nat.shiftRight_eq_div_pow]

/-- One bit of a word as arithmetic. -/
theorem getLsbD_eq {n : Nat} (w : BitVec n) (i : Nat) : w.getLsbD i = decide (w.toNat / 2 ^ i % 2 = 1) := by
  rw [BitVec.getLsbD, Nat.testBit_eq_decide_div_mod_eq]

theorem wordZ_toNat (op : BitVec 4) : (wordZ op).toNat = op.toNat * 2 ^ 28 := by
  rw [wordZ, toNat_append_add]; simp

section
variable (kind : BitVec 4) (sx : Bool) (off : BitVec 12) (wm1 : Six)

theorem wordF_toNat : (wordF kind sx off wm1).toNat =
    3 * 2 ^ 28 + kind.toNat * 2 ^ 24 + sx.toNat * 2 ^ 23 + off.toNat * 2 ^ 6 + wm1.toNat := by
  unfold wordF
  simp only [toNat_append_add, BitVec.toNat_ofBool]
  simp
  omega

@[simp] theorem opField_wordF : opField (wordF kind sx off wm1) = 3 := by
  apply BitVec.eq_of_toNat_eq
  rw [opField, toNat_field, wordF_toNat]
  have := kind.isLt; have := off.isLt; have := wm1.isLt; have := Bool.toNat_le sx
  simp; omega

@[simp] theorem kindField_wordF : kindField (wordF kind sx off wm1) = kind := by
  apply BitVec.eq_of_toNat_eq
  rw [kindField, toNat_field, wordF_toNat]
  have := kind.isLt; have := off.isLt; have := wm1.isLt; have := Bool.toNat_le sx
  omega

@[simp] theorem sxField_wordF : sxField (wordF kind sx off wm1) = sx := by
  rw [sxField, getLsbD_eq, wordF_toNat]
  have := kind.isLt; have := off.isLt; have := wm1.isLt
  cases sx
  · simp; omega
  · simp; omega

@[simp] theorem fReserved_wordF : fReserved (wordF kind sx off wm1) = 0 := by
  apply BitVec.eq_of_toNat_eq
  rw [fReserved, toNat_field, wordF_toNat]
  have := kind.isLt; have := off.isLt; have := wm1.isLt; have := Bool.toNat_le sx
  simp; omega

@[simp] theorem offField_wordF : offField (wordF kind sx off wm1) = off := by
  apply BitVec.eq_of_toNat_eq
  rw [offField, toNat_field, wordF_toNat]
  have := kind.isLt; have := off.isLt; have := wm1.isLt; have := Bool.toNat_le sx
  omega

@[simp] theorem wm1Field_wordF : wm1Field (wordF kind sx off wm1) = wm1 := by
  apply BitVec.eq_of_toNat_eq
  rw [wm1Field, toNat_field, wordF_toNat]
  have := kind.isLt; have := off.isLt; have := wm1.isLt; have := Bool.toNat_le sx
  omega

end

section
variable (foff : BitVec 12) (pol : Bool)

theorem flagK_toNat : (flagK foff pol).toNat = pol.toNat * 2 ^ 12 + foff.toNat := by
  rw [flagK, toNat_append_add, toNat_append_add, BitVec.toNat_ofBool]; simp

@[simp] theorem kFlagOffset_flagK : kFlagOffset (flagK foff pol) = foff := by
  apply BitVec.eq_of_toNat_eq
  rw [kFlagOffset, toNat_field, flagK_toNat]
  have := foff.isLt; have := Bool.toNat_le pol
  omega

@[simp] theorem kFlagPolarity_flagK : kFlagPolarity (flagK foff pol) = pol := by
  rw [kFlagPolarity, getLsbD_eq, flagK_toNat]
  have := foff.isLt
  cases pol
  · simp; omega
  · simp; omega

end

/-- Two format F words with the same fields are the same word. -/
theorem wordF_of_fields {w : CommandWord} (h1 : opField w = 3) (h2 : fReserved w = 0) :
    wordF (kindField w) (sxField w) (offField w) (wm1Field w) = w := by
  apply BitVec.eq_of_toNat_eq
  have e1 := congrArg BitVec.toNat h1
  have e2 := congrArg BitVec.toNat h2
  rw [opField, toNat_field] at e1
  rw [fReserved, toNat_field] at e2
  have e3 : (sxField w).toNat = w.toNat / 2 ^ 23 % 2 := by
    rw [sxField, getLsbD_eq]
    rcases Nat.mod_two_eq_zero_or_one (w.toNat / 2 ^ 23) with h | h <;> rw [h] <;> rfl
  rw [wordF_toNat, e3, kindField, offField, wm1Field, toNat_field, toNat_field, toNat_field]
  have := w.isLt
  simp at e1 e2
  omega

/-- A format Z word is its operation code. -/
theorem wordZ_of_fields {w : CommandWord} (h : zReserved w = 0) : wordZ (opField w) = w := by
  apply BitVec.eq_of_toNat_eq
  have e := congrArg BitVec.toNat h
  rw [zReserved, toNat_field] at e
  rw [wordZ_toNat, opField, toNat_field]
  have := w.isLt
  simp at e
  omega

section
variable (w : CommandWord)

/-- The fields of a word under the mask of the `FVAL` rows (30_encoding.md R73). -/
theorem opField_masked : opField (w &&& 0xFF7C0000) = opField w :=
  (BitVec.extractLsb'_and ..).trans (BitVec.and_allOnes (x := opField w))

theorem kindField_masked : kindField (w &&& 0xFF7C0000) = kindField w :=
  (BitVec.extractLsb'_and ..).trans (BitVec.and_allOnes (x := kindField w))

theorem fReserved_masked : fReserved (w &&& 0xFF7C0000) = fReserved w :=
  (BitVec.extractLsb'_and ..).trans (BitVec.and_allOnes (x := fReserved w))

theorem offField_masked : offField (w &&& 0xFF7C0000) = 0 :=
  (BitVec.extractLsb'_and ..).trans (BitVec.and_zero (x := offField w))

theorem wm1Field_masked : wm1Field (w &&& 0xFF7C0000) = 0 :=
  (BitVec.extractLsb'_and ..).trans (BitVec.and_zero (x := wm1Field w))

theorem sxField_masked : sxField (w &&& 0xFF7C0000) = false :=
  (BitVec.getLsbD_and ..).trans (Bool.and_false _)

/-- Membership of an `FVAL` row by mask and match is membership by fields. -/
theorem masked_eq_iff (kind : BitVec 4) :
    w &&& 0xFF7C0000 = wordF kind false 0 0 ↔ opField w = 3 ∧ kindField w = kind ∧ fReserved w = 0 := by
  constructor
  · intro h
    refine ⟨?_, ?_, ?_⟩
    · rw [← opField_masked, h, opField_wordF]
    · rw [← kindField_masked, h, kindField_wordF]
    · rw [← fReserved_masked, h, fReserved_wordF]
  · rintro ⟨h1, h2, h3⟩
    have := wordF_of_fields (w := w &&& 0xFF7C0000) (by rw [opField_masked, h1]) (by rw [fReserved_masked, h3])
    rw [kindField_masked, sxField_masked, offField_masked, wm1Field_masked, h2] at this
    exact this.symm

end

section
variable (w : CommandWord)

/-- A 4-bit field is its number. -/
theorem opField_eq_of {n : Nat} (hn : n < 16) (h : (opField w).toNat = n) : opField w = BitVec.ofNat 4 n :=
  BitVec.eq_of_toNat_eq (by rw [h, BitVec.toNat_ofNat, Nat.mod_eq_of_lt hn])

end

/-- All the ways a command decodes: a format Z word of operation 0, 1 or 2, or a format F word by its kind. -/
theorem decode_cases {c : Command} {i : Instr} (h : decode c = some i) :
    (zReserved c.word = 0 ∧
      ((opField c.word = 0 ∧ i = .nop) ∨ (opField c.word = 1 ∧ i = .hdr) ∨ (opField c.word = 2 ∧ i = .disp))) ∨
    (opField c.word = 3 ∧ fReserved c.word = 0 ∧
      decodeFval (kindField c.word).toNat (sxField c.word) (offField c.word) (wm1Field c.word) c.k = some i) := by
  unfold decode at h
  split at h
  · next ho =>
    split at h
    · next hz => exact .inl ⟨hz, .inl ⟨opField_eq_of _ (by decide) ho, (Option.some.inj h).symm⟩⟩
    · cases h
  · next ho =>
    split at h
    · next hz => exact .inl ⟨hz, .inr (.inl ⟨opField_eq_of _ (by decide) ho, (Option.some.inj h).symm⟩)⟩
    · cases h
  · next ho =>
    split at h
    · next hz => exact .inl ⟨hz, .inr (.inr ⟨opField_eq_of _ (by decide) ho, (Option.some.inj h).symm⟩)⟩
    · cases h
  · next ho =>
    split at h
    · next hz => exact .inr ⟨opField_eq_of _ (by decide) ho, hz, h⟩
    · cases h
  · cases h

/-- A format F word with zero reserved bits decodes by its kind. -/
theorem decode_wordF (kind : BitVec 4) (sx : Bool) (off : BitVec 12) (wm1 : Six) (k : KOperand) :
    decode ⟨wordF kind sx off wm1, k⟩ = decodeFval kind.toNat sx off wm1 k := by
  simp [decode]

/-- The K bits that FLAG uses, put back. -/
theorem flagK_fields_toNat (k : KOperand) : (flagK (kFlagOffset k) (kFlagPolarity k)).toNat = k.toNat % 2 ^ 13 := by
  have e : (kFlagPolarity k).toNat = k.toNat / 2 ^ 12 % 2 := by
    rw [kFlagPolarity, getLsbD_eq]
    rcases Nat.mod_two_eq_zero_or_one (k.toNat / 2 ^ 12) with h | h <;> rw [h] <;> rfl
  rw [flagK_toNat, e, kFlagOffset, toNat_field]
  omega

end Sys2Proof
end

