-- ==== Sys2Proof/Laws/State.lean ====
section
/-! SUPPORT. What each update of the state leaves in each field: one lemma per field per update, all by `rfl`. -/

namespace Sys2Proof.Machine

section
variable (r : Regs) (st : Status)

@[simp] theorem Regs.complete_status : (r.complete st).status = st.code := rfl
@[simp] theorem Regs.complete_rspValid : (r.complete st).rspValid = true := rfl
@[simp] theorem Regs.complete_hv : (r.complete st).hv = r.hv := rfl
@[simp] theorem Regs.complete_msgId : (r.complete st).msgId = r.msgId := rfl
@[simp] theorem Regs.complete_repeatInd : (r.complete st).repeatInd = r.repeatInd := rfl
@[simp] theorem Regs.complete_mmsi : (r.complete st).mmsi = r.mmsi := rfl
@[simp] theorem Regs.complete_dv : (r.complete st).dv = r.dv := rfl
@[simp] theorem Regs.complete_route : (r.complete st).route = r.route := rfl
@[simp] theorem Regs.complete_subidx : (r.complete st).subidx = r.subidx := rfl
@[simp] theorem Regs.complete_dac : (r.complete st).dac = r.dac := rfl
@[simp] theorem Regs.complete_fi : (r.complete st).fi = r.fi := rfl
@[simp] theorem Regs.complete_fvalue : (r.complete st).fvalue = r.fvalue := rfl
@[simp] theorem Regs.complete_fmiss : (r.complete st).fmiss = r.fmiss := rfl
@[simp] theorem Regs.complete_fspec : (r.complete st).fspec = r.fspec := rfl

end

section
variable (r : Regs) (hv : Bool) (i : Six) (rep : BitVec 2) (m : BitVec 30)

@[simp] theorem Regs.writeHeader_status : (r.writeHeader hv i rep m).status = r.status := rfl
@[simp] theorem Regs.writeHeader_rspValid : (r.writeHeader hv i rep m).rspValid = r.rspValid := rfl
@[simp] theorem Regs.writeHeader_hv : (r.writeHeader hv i rep m).hv = hv := rfl
@[simp] theorem Regs.writeHeader_msgId : (r.writeHeader hv i rep m).msgId = i := rfl
@[simp] theorem Regs.writeHeader_repeatInd : (r.writeHeader hv i rep m).repeatInd = rep := rfl
@[simp] theorem Regs.writeHeader_mmsi : (r.writeHeader hv i rep m).mmsi = m := rfl
@[simp] theorem Regs.writeHeader_dv : (r.writeHeader hv i rep m).dv = r.dv := rfl
@[simp] theorem Regs.writeHeader_route : (r.writeHeader hv i rep m).route = r.route := rfl
@[simp] theorem Regs.writeHeader_subidx : (r.writeHeader hv i rep m).subidx = r.subidx := rfl
@[simp] theorem Regs.writeHeader_dac : (r.writeHeader hv i rep m).dac = r.dac := rfl
@[simp] theorem Regs.writeHeader_fi : (r.writeHeader hv i rep m).fi = r.fi := rfl
@[simp] theorem Regs.writeHeader_fvalue : (r.writeHeader hv i rep m).fvalue = r.fvalue := rfl
@[simp] theorem Regs.writeHeader_fmiss : (r.writeHeader hv i rep m).fmiss = r.fmiss := rfl
@[simp] theorem Regs.writeHeader_fspec : (r.writeHeader hv i rep m).fspec = r.fspec := rfl

end

section
variable (r : Regs) (dv : Bool) (ro : Route) (n : Six) (d : Dac) (f : Six)

@[simp] theorem Regs.writeDispatch_status : (r.writeDispatch dv ro n d f).status = r.status := rfl
@[simp] theorem Regs.writeDispatch_rspValid : (r.writeDispatch dv ro n d f).rspValid = r.rspValid := rfl
@[simp] theorem Regs.writeDispatch_hv : (r.writeDispatch dv ro n d f).hv = r.hv := rfl
@[simp] theorem Regs.writeDispatch_msgId : (r.writeDispatch dv ro n d f).msgId = r.msgId := rfl
@[simp] theorem Regs.writeDispatch_repeatInd : (r.writeDispatch dv ro n d f).repeatInd = r.repeatInd := rfl
@[simp] theorem Regs.writeDispatch_mmsi : (r.writeDispatch dv ro n d f).mmsi = r.mmsi := rfl
@[simp] theorem Regs.writeDispatch_dv : (r.writeDispatch dv ro n d f).dv = dv := rfl
@[simp] theorem Regs.writeDispatch_route : (r.writeDispatch dv ro n d f).route = ro.code := rfl
@[simp] theorem Regs.writeDispatch_subidx : (r.writeDispatch dv ro n d f).subidx = n := rfl
@[simp] theorem Regs.writeDispatch_dac : (r.writeDispatch dv ro n d f).dac = d := rfl
@[simp] theorem Regs.writeDispatch_fi : (r.writeDispatch dv ro n d f).fi = f := rfl
@[simp] theorem Regs.writeDispatch_fvalue : (r.writeDispatch dv ro n d f).fvalue = r.fvalue := rfl
@[simp] theorem Regs.writeDispatch_fmiss : (r.writeDispatch dv ro n d f).fmiss = r.fmiss := rfl
@[simp] theorem Regs.writeDispatch_fspec : (r.writeDispatch dv ro n d f).fspec = r.fspec := rfl

end

section
variable (r : Regs) (v : BitVec 64) (m sp : Bool)

@[simp] theorem Regs.writeField_status : (r.writeField v m sp).status = r.status := rfl
@[simp] theorem Regs.writeField_rspValid : (r.writeField v m sp).rspValid = r.rspValid := rfl
@[simp] theorem Regs.writeField_hv : (r.writeField v m sp).hv = r.hv := rfl
@[simp] theorem Regs.writeField_msgId : (r.writeField v m sp).msgId = r.msgId := rfl
@[simp] theorem Regs.writeField_repeatInd : (r.writeField v m sp).repeatInd = r.repeatInd := rfl
@[simp] theorem Regs.writeField_mmsi : (r.writeField v m sp).mmsi = r.mmsi := rfl
@[simp] theorem Regs.writeField_dv : (r.writeField v m sp).dv = r.dv := rfl
@[simp] theorem Regs.writeField_route : (r.writeField v m sp).route = r.route := rfl
@[simp] theorem Regs.writeField_subidx : (r.writeField v m sp).subidx = r.subidx := rfl
@[simp] theorem Regs.writeField_dac : (r.writeField v m sp).dac = r.dac := rfl
@[simp] theorem Regs.writeField_fi : (r.writeField v m sp).fi = r.fi := rfl
@[simp] theorem Regs.writeField_fvalue : (r.writeField v m sp).fvalue = v := rfl
@[simp] theorem Regs.writeField_fmiss : (r.writeField v m sp).fmiss = m := rfl
@[simp] theorem Regs.writeField_fspec : (r.writeField v m sp).fspec = sp := rfl

end

section
variable (r : Regs)

@[simp] theorem Regs.clearDispatch_status : (r.clearDispatch).status = r.status := rfl
@[simp] theorem Regs.clearDispatch_rspValid : (r.clearDispatch).rspValid = r.rspValid := rfl
@[simp] theorem Regs.clearDispatch_hv : (r.clearDispatch).hv = r.hv := rfl
@[simp] theorem Regs.clearDispatch_msgId : (r.clearDispatch).msgId = r.msgId := rfl
@[simp] theorem Regs.clearDispatch_repeatInd : (r.clearDispatch).repeatInd = r.repeatInd := rfl
@[simp] theorem Regs.clearDispatch_mmsi : (r.clearDispatch).mmsi = r.mmsi := rfl
@[simp] theorem Regs.clearDispatch_dv : (r.clearDispatch).dv = false := rfl
@[simp] theorem Regs.clearDispatch_route : (r.clearDispatch).route = 0 := rfl
@[simp] theorem Regs.clearDispatch_subidx : (r.clearDispatch).subidx = 0 := rfl
@[simp] theorem Regs.clearDispatch_dac : (r.clearDispatch).dac = 0 := rfl
@[simp] theorem Regs.clearDispatch_fi : (r.clearDispatch).fi = 0 := rfl
@[simp] theorem Regs.clearDispatch_fvalue : (r.clearDispatch).fvalue = r.fvalue := rfl
@[simp] theorem Regs.clearDispatch_fmiss : (r.clearDispatch).fmiss = r.fmiss := rfl
@[simp] theorem Regs.clearDispatch_fspec : (r.clearDispatch).fspec = r.fspec := rfl

end

section
variable (r : Regs)

@[simp] theorem Regs.clearHeader_status : (r.clearHeader).status = r.status := rfl
@[simp] theorem Regs.clearHeader_rspValid : (r.clearHeader).rspValid = r.rspValid := rfl
@[simp] theorem Regs.clearHeader_hv : (r.clearHeader).hv = false := rfl
@[simp] theorem Regs.clearHeader_msgId : (r.clearHeader).msgId = 0 := rfl
@[simp] theorem Regs.clearHeader_repeatInd : (r.clearHeader).repeatInd = 0 := rfl
@[simp] theorem Regs.clearHeader_mmsi : (r.clearHeader).mmsi = 0 := rfl
@[simp] theorem Regs.clearHeader_dv : (r.clearHeader).dv = false := rfl
@[simp] theorem Regs.clearHeader_route : (r.clearHeader).route = 0 := rfl
@[simp] theorem Regs.clearHeader_subidx : (r.clearHeader).subidx = 0 := rfl
@[simp] theorem Regs.clearHeader_dac : (r.clearHeader).dac = 0 := rfl
@[simp] theorem Regs.clearHeader_fi : (r.clearHeader).fi = 0 := rfl
@[simp] theorem Regs.clearHeader_fvalue : (r.clearHeader).fvalue = r.fvalue := rfl
@[simp] theorem Regs.clearHeader_fmiss : (r.clearHeader).fmiss = r.fmiss := rfl
@[simp] theorem Regs.clearHeader_fspec : (r.clearHeader).fspec = r.fspec := rfl

end

section
variable (r : Regs)

@[simp] theorem Regs.clearField_status : (r.clearField).status = r.status := rfl
@[simp] theorem Regs.clearField_rspValid : (r.clearField).rspValid = r.rspValid := rfl
@[simp] theorem Regs.clearField_hv : (r.clearField).hv = r.hv := rfl
@[simp] theorem Regs.clearField_msgId : (r.clearField).msgId = r.msgId := rfl
@[simp] theorem Regs.clearField_repeatInd : (r.clearField).repeatInd = r.repeatInd := rfl
@[simp] theorem Regs.clearField_mmsi : (r.clearField).mmsi = r.mmsi := rfl
@[simp] theorem Regs.clearField_dv : (r.clearField).dv = r.dv := rfl
@[simp] theorem Regs.clearField_route : (r.clearField).route = r.route := rfl
@[simp] theorem Regs.clearField_subidx : (r.clearField).subidx = r.subidx := rfl
@[simp] theorem Regs.clearField_dac : (r.clearField).dac = r.dac := rfl
@[simp] theorem Regs.clearField_fi : (r.clearField).fi = r.fi := rfl
@[simp] theorem Regs.clearField_fvalue : (r.clearField).fvalue = 0 := rfl
@[simp] theorem Regs.clearField_fmiss : (r.clearField).fmiss = false := rfl
@[simp] theorem Regs.clearField_fspec : (r.clearField).fspec = false := rfl

end

section
variable (s : State)

@[simp] theorem State.resetRegs_regs : s.resetRegs.regs = Regs.reset := rfl
@[simp] theorem State.resetRegs_cfg : s.resetRegs.cfg = s.cfg := rfl
@[simp] theorem State.resetRegs_pins : s.resetRegs.pins = s.pins := rfl
@[simp] theorem State.resetRegs_later : s.resetRegs.later = s.later := rfl
@[simp] theorem State.idleRegs_regs : s.idleRegs.regs = { s.regs with rspValid := false } := rfl
@[simp] theorem State.idleRegs_cfg : s.idleRegs.cfg = s.cfg := rfl
@[simp] theorem State.idleRegs_pins : s.idleRegs.pins = s.pins := rfl
@[simp] theorem State.idleRegs_later : s.idleRegs.later = s.later := rfl

@[simp] theorem State.advance_regs : s.advance.regs = s.regs := by
  unfold State.advance; split <;> rfl

@[simp] theorem State.advance_cfg : s.advance.cfg = s.cfg := by
  unfold State.advance; split <;> rfl

theorem State.advance_pins_nil (h : s.later = []) : s.advance.pins = s.pins.idle := by
  unfold State.advance; rw [h]

theorem State.advance_later_nil (h : s.later = []) : s.advance.later = [] := by
  unfold State.advance; rw [h]

theorem State.advance_pins_cons {p : Pins} {ps : List Pins} (h : s.later = p :: ps) : s.advance.pins = p := by
  unfold State.advance; rw [h]

theorem State.advance_later_cons {p : Pins} {ps : List Pins} (h : s.later = p :: ps) : s.advance.later = ps := by
  unfold State.advance; rw [h]

variable (nbits w : Nat)

@[simp] theorem State.withFetchWord_regs : (s.withFetchWord nbits w).regs = s.regs := rfl
@[simp] theorem State.withFetchWord_cfg : (s.withFetchWord nbits w).cfg = s.cfg := rfl
@[simp] theorem State.withFetchWord_later : (s.withFetchWord nbits w).later = s.later := rfl
@[simp] theorem State.withFetchWord_payload : (s.withFetchWord nbits w).pins.payload = s.pins.payload := rfl
@[simp] theorem State.withFetchWord_cmd : (s.withFetchWord nbits w).pins.cmd = commandOfBits nbits w := rfl
@[simp] theorem State.withFetchWord_rst : (s.withFetchWord nbits w).pins.rst = false := rfl
@[simp] theorem State.withFetchWord_cmdValid : (s.withFetchWord nbits w).pins.cmdValid = true := rfl

variable (q : Payload)

@[simp] theorem State.withPayload_regs : (s.withPayload q).regs = s.regs := rfl
@[simp] theorem State.withPayload_cfg : (s.withPayload q).cfg = s.cfg := rfl
@[simp] theorem State.withPayload_later : (s.withPayload q).later = s.later := rfl
@[simp] theorem State.withPayload_payload : (s.withPayload q).pins.payload = q := rfl
@[simp] theorem State.withPayload_rst : (s.withPayload q).pins.rst = s.pins.rst := rfl
@[simp] theorem State.withPayload_cmdValid : (s.withPayload q).pins.cmdValid = s.pins.cmdValid := rfl
@[simp] theorem State.withPayload_cmd : (s.withPayload q).pins.cmd = s.pins.cmd := rfl

end

end Sys2Proof.Machine
end

