-- ==== Sys2Proof/Laws/Payload.lean ====
section
/-! SUPPORT. The laws of the payload bits: the canonical form, read after write, and the bit fields. -/

namespace Sys2Proof.Machine

/-- The canonical form as a proposition. -/
theorem PayloadBits.wf_iff (m : PayloadBits) :
    m.wf = true ↔ (m.map Prod.fst).Pairwise (· < ·) ∧ ∀ c ∈ m, c.2 = true := by
  simp [PayloadBits.wf, PayloadBits.unlisted]

theorem PayloadBits.wf_nil : PayloadBits.wf [] = true := by decide

/-- A cell in front of a canonical list that starts above it. -/
theorem PayloadBits.wf_cons {k : Nat} {b : Bool} {m : PayloadBits} :
    PayloadBits.wf ((k, b) :: m) = true ↔ b = true ∧ (∀ c ∈ m, k < c.1) ∧ m.wf = true := by
  simp only [wf_iff, List.map_cons, List.pairwise_cons, List.mem_map, List.mem_cons]
  constructor
  · rintro ⟨⟨h1, h2⟩, h3⟩
    exact ⟨h3 (k, b) (.inl rfl), fun c hc => h1 c.1 ⟨c, hc, rfl⟩, h2, fun c hc => h3 c (.inr hc)⟩
  · rintro ⟨rfl, h1, h2, h3⟩
    refine ⟨⟨?_, h2⟩, ?_⟩
    · rintro a ⟨c, hc, rfl⟩; exact h1 c hc
    · rintro c (rfl | hc)
      · rfl
      · exact h3 c hc

/-- Where the cells of a written list lie. -/
theorem PayloadBits.mem_setBit {m : PayloadBits} {k : Nat} {b : Bool} {c : Nat × Bool} (h : c ∈ m.setBit k b) :
    c.1 = k ∨ c ∈ m := by
  induction m with
  | nil =>
    simp only [setBit] at h
    split at h
    · cases h
    · exact .inl (by rw [List.mem_singleton.mp h])
  | cons d rest ih =>
    obtain ⟨a, x⟩ := d
    simp only [setBit] at h
    split at h
    · split at h
      · exact .inr h
      · rcases List.mem_cons.mp h with rfl | h
        · exact .inl rfl
        · exact .inr h
    · split at h
      · split at h
        · exact .inr (List.mem_cons_of_mem _ h)
        · rcases List.mem_cons.mp h with rfl | h
          · exact .inl rfl
          · exact .inr (List.mem_cons_of_mem _ h)
      · rcases List.mem_cons.mp h with rfl | h
        · exact .inr (List.mem_cons_self ..)
        · exact (ih h).imp_right (List.mem_cons_of_mem _)

/-- The environment's write keeps the canonical form. -/
theorem PayloadBits.setBit_wf {m : PayloadBits} (h : m.wf = true) (k : Nat) (b : Bool) : (m.setBit k b).wf = true := by
  induction m with
  | nil => cases b <;> simp [setBit, unlisted, wf_nil, wf_cons]
  | cons d rest ih =>
    obtain ⟨a, x⟩ := d
    have ⟨hx, ha, hr⟩ := wf_cons.mp h
    simp only [setBit]
    split
    · cases b
      · simpa [unlisted] using h
      · rename_i hk
        simp only [unlisted, Bool.true_eq_false, if_false]
        refine wf_cons.mpr ⟨rfl, ?_, h⟩
        rintro c hc
        rcases List.mem_cons.mp hc with rfl | hc
        · exact hk
        · exact Nat.lt_trans hk (ha c hc)
    · split
      · rename_i hk
        cases b
        · simpa [unlisted] using hr
        · simp only [unlisted, Bool.true_eq_false, if_false]
          exact wf_cons.mpr ⟨rfl, fun c hc => hk ▸ ha c hc, hr⟩
      · rename_i h1 h2
        refine wf_cons.mpr ⟨hx, fun c hc => ?_, ih hr⟩
        rcases mem_setBit hc with hc | hc
        · omega
        · exact ha c hc

/-- Bits loaded from index `i` on lie at or above `i`. -/
theorem PayloadBits.mem_ofBits {i : Nat} {bs : List Bool} {c : Nat × Bool} (h : c ∈ PayloadBits.ofBits i bs) : i ≤ c.1 := by
  induction bs generalizing i with
  | nil => cases h
  | cons b bs ih =>
    simp only [ofBits] at h
    split at h
    · have := ih h; omega
    · rcases List.mem_cons.mp h with rfl | h
      · exact Nat.le_refl _
      · have := ih h; omega

/-- A loaded buffer is in canonical form. -/
theorem PayloadBits.ofBits_wf (i : Nat) (bs : List Bool) : (PayloadBits.ofBits i bs).wf = true := by
  induction bs generalizing i with
  | nil => rfl
  | cons b bs ih =>
    cases b
    · simpa [ofBits, unlisted] using ih (i + 1)
    · simp only [ofBits, unlisted, Bool.true_eq_false, if_false]
      exact wf_cons.mpr ⟨rfl, fun c hc => mem_ofBits hc, ih (i + 1)⟩

/-- An index below every cell is unlisted. -/
theorem PayloadBits.read_below {m : PayloadBits} {k : Nat} (h : ∀ c ∈ m, k < c.1) : m.read k = false := by
  induction m with
  | nil => rfl
  | cons d rest ih =>
    have hd := h d (List.mem_cons_self ..)
    rw [read, if_neg (by omega)]
    exact ih fun c hc => h c (List.mem_cons_of_mem _ hc)

/-- Read after write: the written index gives the written bit, every other index is as before. -/
theorem PayloadBits.read_setBit {m : PayloadBits} (h : m.wf = true) (k : Nat) (b : Bool) (j : Nat) :
    (m.setBit k b).read j = if j = k then b else m.read j := by
  induction m with
  | nil => cases b <;> simp [setBit, read, unlisted, eq_comm]
  | cons d rest ih =>
    obtain ⟨a, x⟩ := d
    have ⟨hx, ha, hr⟩ := wf_cons.mp h
    simp only [setBit]
    split
    · rename_i hk
      have hb : read ((a, x) :: rest) k = false := read_below <| by
        intro c hc
        rcases List.mem_cons.mp hc with rfl | hc
        · exact hk
        · exact Nat.lt_trans hk (ha c hc)
      cases b
      · rw [if_pos (show false = unlisted from rfl)]; split
        · next e => rw [e, hb]
        · rfl
      · rw [if_neg (by decide), read]; simp only [eq_comm]
    · split
      · next e =>
        subst e
        cases b
        · rw [if_pos (show false = unlisted from rfl)]; split
          · next e => rw [e, read_below ha]
          · next e => rw [read, if_neg (Ne.symm e)]
        · rw [if_neg (by decide), read]
          by_cases e : k = j
          · rw [if_pos e, if_pos e.symm]
          · rw [if_neg e, if_neg (Ne.symm e), read, if_neg e]
      · rename_i h1 h2
        rw [read, read, ih hr]
        by_cases e : a = j
        · rw [if_pos e, if_pos e, if_neg (by omega)]
        · rw [if_neg e, if_neg e]

@[simp] theorem ubits_zero (p : Payload) (off : Nat) : ubits p off 0 = 0 := rfl

theorem ubits_succ (p : Payload) (off w : Nat) : ubits p off (w + 1) = 2 * ubits p off w + (pbit p (off + w)).toNat := rfl

/-- A field of `w` bits is below `2^w` (20_memory.md R46). -/
theorem ubits_lt (p : Payload) (off w : Nat) : ubits p off w < 2 ^ w := by
  induction w with
  | zero => simp
  | succ w ih =>
    rw [ubits_succ, Nat.pow_succ]
    have : (pbit p (off + w)).toNat ≤ 1 := Bool.toNat_le _
    omega

/-- A field is a function of its own bits. -/
theorem ubits_congr {p q : Payload} {off w : Nat} (h : ∀ k, off ≤ k → k < off + w → pbit q k = pbit p k) :
    ubits q off w = ubits p off w := by
  induction w with
  | zero => rfl
  | succ w ih =>
    rw [ubits_succ, ubits_succ, ih fun k h1 h2 => h k h1 (by omega), h (off + w) (by omega) (by omega)]

/-- A field determines its bits. -/
theorem pbit_of_ubits_eq {p q : Payload} {off w : Nat} (h : ubits q off w = ubits p off w) (k : Nat) (h1 : off ≤ k)
    (h2 : k < off + w) : pbit q k = pbit p k := by
  induction w with
  | zero => omega
  | succ w ih =>
    rw [ubits_succ, ubits_succ] at h
    have hp := Bool.toNat_le (pbit p (off + w))
    have hq := Bool.toNat_le (pbit q (off + w))
    by_cases hk : k = off + w
    · subst hk
      cases ep : pbit p (off + w) <;> cases eq : pbit q (off + w) <;> simp [ep, eq] at h ⊢ <;> omega
    · exact ih (by omega) (by omega)

/-- U depends on the character count and the pad count alone. -/
theorem usable_congr {p q : Payload} (h1 : q.charCount = p.charCount) (h2 : q.padBits = p.padBits) :
    usable q = usable p := by
  rw [usable, usable, h1, h2]

theorem inputStatus_congr {p q : Payload} (h1 : q.padBits = p.padBits) (h2 : q.armorErr = p.armorErr) :
    inputStatus q = inputStatus p := by
  rw [inputStatus, inputStatus, h1, h2]

end Sys2Proof.Machine
end

