-- ==== Sys2Proof/Laws/Ops.lean ====
section
/-! SUPPORT. What each shared operation can do, said once; proofs cite these lemmas and do not unfold the operations. -/

namespace Sys2Proof.Machine

/-- A command always ends in the next state, with its writes made and STATUS and RSP_VALID written. -/
theorem respond_eq (st : Status) (f : Regs → Regs) (s : State) :
    respond st f s = .next { s with regs := (f s.regs).complete st } := rfl

theorem respond_inv {st : Status} {f : Regs → Regs} {s t : State} (h : respond st f s = .next t) :
    t = { s with regs := (f s.regs).complete st } := (Host.Outcome.next.inj h).symm

/-- The inputs pass the first two checks exactly when the pad count is at most 5 and no character is malformed. -/
theorem inputStatus_none_iff (p : Payload) : inputStatus p = none ↔ p.padBits.toNat ≤ 5 ∧ p.armorErr = false := by
  unfold inputStatus
  split
  · simp; omega
  · split <;> simp_all

theorem inputStatus_pad {p : Payload} (h : 5 < p.padBits.toNat) : inputStatus p = some .padRange := by
  rw [inputStatus, if_pos h]

theorem inputStatus_armor {p : Payload} (h1 : p.padBits.toNat ≤ 5) (h2 : p.armorErr = true) :
    inputStatus p = some .badNmeaChar := by
  rw [inputStatus, if_neg (by omega), if_pos h2]

/-- The first two checks raise PAD_RANGE or BAD_NMEA_CHAR and nothing else. -/
theorem inputStatus_some {p : Payload} {st : Status} (h : inputStatus p = some st) : st = .padRange ∨ st = .badNmeaChar := by
  unfold inputStatus at h
  split at h
  · exact .inl (Option.some.inj h).symm
  · split at h
    · exact .inr (Option.some.inj h).symm
    · cases h

/-- All that `HDR` can do: a failure with the failure writes, or the header latched from readable, long enough inputs. -/
theorem execHdr_cases (s : State) :
    (∃ st, (st = .padRange ∨ st = .badNmeaChar ∨ st = .insufficientBits) ∧ execHdr s = respond st Regs.clearHeader s) ∨
    (inputStatus s.pins.payload = none ∧ ¬ headerTooShort s.pins.payload ∧
      execHdr s = respond .ok (latchHeader s.pins.payload) s) := by
  unfold execHdr
  split
  · next st h => exact .inl ⟨st, (inputStatus_some h).imp_right .inl, rfl⟩
  · next h =>
    split
    · exact .inl ⟨_, .inr (.inr rfl), rfl⟩
    · next hl => exact .inr ⟨h, hl, rfl⟩

/-- The index found in a sub-type table is that of an entry equal to the pair, with no equal entry before it. -/
theorem subIndex_some {table : List SubType} {e : SubType} {n : Nat} (h : subIndex table e = some n) :
    table[n]? = some e ∧ ∀ m, m < n → table[m]? ≠ some e := by
  unfold subIndex at h
  rw [List.findIdx?_eq_some_iff_getElem] at h
  obtain ⟨hn, he, hlt⟩ := h
  refine ⟨?_, fun m hm hc => ?_⟩
  · rw [List.getElem?_eq_getElem hn]
    exact congrArg some (by simpa using he)
  · have := hlt m hm
    rw [List.getElem?_eq_getElem (by omega)] at hc
    simp [Option.some.inj hc] at this

theorem subIndex_none_iff {table : List SubType} {e : SubType} : subIndex table e = none ↔ e ∉ table := by
  simp only [subIndex, List.findIdx?_eq_none_iff, beq_eq_false_iff_ne]
  exact ⟨fun h hm => h e hm rfl, fun h x hx hxe => h (hxe ▸ hx)⟩

/-- All that the DAC/FI peek can do. -/
theorem peekRoute_cases (base : Nat) (table : List SubType) (known common : Route) (s : State) :
    (¬ inBounds s.pins.payload base 16 ∧
      peekRoute base table known common s = respond .insufficientBits Regs.clearDispatch s) ∨
    (∃ n, inBounds s.pins.payload base 16 ∧ subIndex table (peek s.pins.payload base) = some n ∧
      peekRoute base table known common s = respond .ok (Regs.writeDispatch true known (BitVec.ofNat 6 n)
        (peek s.pins.payload base).1 (peek s.pins.payload base).2) s) ∨
    (inBounds s.pins.payload base 16 ∧ peek s.pins.payload base ∉ table ∧
      peekRoute base table known common s = respond .unknownSubtype (Regs.writeDispatch true common 0
        (peek s.pins.payload base).1 (peek s.pins.payload base).2) s) := by
  unfold peekRoute
  split
  · next hb =>
    simp only []
    split
    · next n h => exact .inr (.inl ⟨n, hb, h, rfl⟩)
    · next h => exact .inr (.inr ⟨hb, subIndex_none_iff.mp h, rfl⟩)
  · next hb => exact .inl ⟨hb, rfl⟩

/-- All that `DISP` can do before it looks at the message id. -/
theorem execDisp_cases (s : State) :
    (s.regs.hv = false ∧ execDisp s = respond .noHeader Regs.clearDispatch s) ∨
    (∃ st, s.regs.hv = true ∧ (st = .padRange ∨ st = .badNmeaChar) ∧ execDisp s = respond st Regs.clearDispatch s) ∨
    (s.regs.hv = true ∧ inputStatus s.pins.payload = none ∧ execDisp s = routeById s) := by
  unfold execDisp
  split
  · next hv =>
    split
    · next st h => exact .inr (.inl ⟨st, hv, inputStatus_some h, rfl⟩)
    · next h => exact .inr (.inr ⟨hv, h, rfl⟩)
  · next hv => exact .inl ⟨by simpa using hv, rfl⟩

/-- The multiplexer on the ids that are peeked and the ids that are unsupported. -/
theorem routeById_six {s : State} (h : s.regs.msgId = 6) :
    routeById s = peekRoute s.cfg.dacfiOff6 s.cfg.sub6 .bin6Sub .bin6Common s := by
  have e : s.regs.msgId.toNat = 6 := by rw [h]; rfl
  rw [routeById, if_pos e]

theorem routeById_eight {s : State} (h : s.regs.msgId = 8) :
    routeById s = peekRoute s.cfg.dacfiOff8 s.cfg.sub8 .bin8Sub .bin8Common s := by
  have e : s.regs.msgId.toNat = 8 := by rw [h]; rfl
  rw [routeById, if_neg (by omega), if_pos e]

theorem routeById_unsupported {s : State} (h : s.regs.msgId = 15 ∨ s.regs.msgId = 19) :
    routeById s = respond .unsupportedType (Regs.writeDispatch false .unsupported 0 0 0) s := by
  have e : s.regs.msgId.toNat = 15 ∨ s.regs.msgId.toNat = 19 := h.imp (fun h => by rw [h]; rfl) (fun h => by rw [h]; rfl)
  rw [routeById, if_neg (by omega), if_neg (by omega), if_pos e]

/-- The multiplexer on every other id: the route table, or the unknown verdict. -/
theorem routeById_other {s : State} (h6 : s.regs.msgId ≠ 6) (h8 : s.regs.msgId ≠ 8) (h15 : s.regs.msgId ≠ 15)
    (h19 : s.regs.msgId ≠ 19) :
    (∃ r, routeTable s.regs.msgId.toNat = some r ∧ routeById s = respond .ok (Regs.writeDispatch true r 0 0 0) s) ∨
    (routeTable s.regs.msgId.toNat = none ∧
      routeById s = respond .unknownType (Regs.writeDispatch true .unknown 0 0 0) s) := by
  have ne : ∀ {n : Nat} {v : Six}, v.toNat = n → s.regs.msgId ≠ v → s.regs.msgId.toNat ≠ n :=
    fun hv hne e => hne (BitVec.eq_of_toNat_eq (by rw [e, hv]))
  have n6 := ne (n := 6) rfl h6
  have n8 := ne (n := 8) rfl h8
  have n15 := ne (n := 15) rfl h15
  have n19 := ne (n := 19) rfl h19
  unfold routeById
  rw [if_neg n6, if_neg n8, if_neg (by omega)]
  split
  · next r hr => exact .inl ⟨r, hr, rfl⟩
  · next hr => exact .inr ⟨hr, rfl⟩

/-- A pair in bounds that is in the table at `n` first, and one that is not in the table. -/
theorem peekRoute_known {base n : Nat} {table : List SubType} {known common : Route} {s : State}
    (hb : inBounds s.pins.payload base 16) (h : subIndex table (peek s.pins.payload base) = some n) :
    peekRoute base table known common s = respond .ok (Regs.writeDispatch true known (BitVec.ofNat 6 n)
      (peek s.pins.payload base).1 (peek s.pins.payload base).2) s := by
  simp only [peekRoute, if_pos hb, h]

theorem peekRoute_unknown {base : Nat} {table : List SubType} {known common : Route} {s : State}
    (hb : inBounds s.pins.payload base 16) (h : peek s.pins.payload base ∉ table) :
    peekRoute base table known common s = respond .unknownSubtype (Regs.writeDispatch true common 0
      (peek s.pins.payload base).1 (peek s.pins.payload base).2) s := by
  simp only [peekRoute, if_pos hb, subIndex_none_iff.mpr h]

theorem peekRoute_short {base : Nat} {table : List SubType} {known common : Route} {s : State}
    (hb : ¬ inBounds s.pins.payload base 16) :
    peekRoute base table known common s = respond .insufficientBits Regs.clearDispatch s := by
  simp only [peekRoute, if_neg hb]

/-- All that an `FVAL` of a kind other than TEXT can do. -/
theorem fvalField_cases (sx : Bool) (off w reach : Nat) (pred : Nat → FieldVerdict) (s : State) :
    (∃ st, (st = .padRange ∨ st = .badNmeaChar ∨ st = .insufficientBits) ∧
      fvalField sx off w reach pred s = respond st Regs.clearField s) ∨
    (inputStatus s.pins.payload = none ∧ inBounds s.pins.payload off w ∧
      ¬ (reach ≠ 0 ∧ usable s.pins.payload < (reach : Int)) ∧
      fvalField sx off w reach pred s =
        respond .ok (latchField sx w (ubits s.pins.payload off w) (pred (ubits s.pins.payload off w))) s) := by
  unfold fvalField
  split
  · next st h => exact .inl ⟨st, (inputStatus_some h).imp_right .inl, rfl⟩
  · next h =>
    split
    · next hb =>
      split
      · exact .inl ⟨_, .inr (.inr rfl), rfl⟩
      · next hr => exact .inr ⟨h, hb, hr, rfl⟩
    · exact .inl ⟨_, .inr (.inr rfl), rfl⟩

/-- A readable, in-bounds field is read and classified. -/
theorem fvalField_ok {sx : Bool} {off w reach : Nat} {pred : Nat → FieldVerdict} {s : State}
    (h : inputStatus s.pins.payload = none) (hb : inBounds s.pins.payload off w)
    (hr : ¬ (reach ≠ 0 ∧ usable s.pins.payload < (reach : Int))) :
    fvalField sx off w reach pred s =
      respond .ok (latchField sx w (ubits s.pins.payload off w) (pred (ubits s.pins.payload off w))) s := by
  simp only [fvalField, h, if_pos hb, if_neg hr]

/-- All that `FVAL.TEXT` can do. -/
theorem fvalChars_cases (off n : Nat) (s : State) :
    (∃ st, (st = .padRange ∨ st = .badNmeaChar ∨ st = .insufficientBits) ∧
      fvalChars off n s = respond st Regs.clearField s) ∨
    (inputStatus s.pins.payload = none ∧ inBounds s.pins.payload off (6 * n) ∧
      fvalChars off n s = respond .ok (Regs.writeField 0 (allPadding s.pins.payload s.cfg.padCode off n) false) s) := by
  unfold fvalChars
  split
  · next st h => exact .inl ⟨st, (inputStatus_some h).imp_right .inl, rfl⟩
  · next h =>
    split
    · next hb => exact .inr ⟨h, hb, rfl⟩
    · exact .inl ⟨_, .inr (.inr rfl), rfl⟩

/-- The text is padding exactly when each of its characters is. -/
theorem allPadding_iff (p : Payload) (c : Six) (off n : Nat) :
    allPadding p c off n = true ↔ ∀ j, j < n → ubits p (off + 6 * j) 6 = c.toNat := by
  simp [allPadding]

/-- The two readings of a sign bit agree. -/
theorem sext_eq {w raw : Nat} (hw : 1 ≤ w) :
    sext w raw = if 2 ^ (w - 1) ≤ raw then (raw : Int) - 2 ^ w else (raw : Int) := by
  obtain ⟨v, rfl⟩ : ∃ v, w = v + 1 := ⟨w - 1, by omega⟩
  simp only [sext, Nat.add_sub_cancel]
  have : 2 ^ (v + 1) = 2 * 2 ^ v := by rw [Nat.pow_succ, Nat.mul_comm]
  by_cases h : 2 ^ v ≤ raw
  · rw [if_pos h, if_neg (by omega)]
  · rw [if_neg h, if_pos (by omega)]

/-- What a step is, by the pins of its edge. -/
theorem step_reset {s : State} (h : s.pins.rst = true) : step s = .next s.resetRegs.advance := by
  rw [step, if_pos h]

theorem step_idle {s : State} (h1 : s.pins.rst = false) (h2 : s.pins.cmdValid = false) :
    step s = .next s.idleRegs.advance := by
  simp [step, h1, h2]

theorem step_command {s : State} {i : Instr} (h1 : s.pins.rst = false) (h2 : s.pins.cmdValid = true)
    (h3 : decode s.pins.cmd = some i) : step s = advanced (exec i s) := by
  simp [step, h1, h2, h3]

theorem step_illegal {s : State} (h1 : s.pins.rst = false) (h2 : s.pins.cmdValid = true)
    (h3 : decode s.pins.cmd = none) : step s = advanced (execIllegal s) := by
  simp [step, h1, h2, h3]

/-- All that an edge can do. -/
theorem step_cases (s : State) :
    (s.pins.rst = true ∧ step s = .next s.resetRegs.advance) ∨
    (∃ i, s.pins.rst = false ∧ s.pins.cmdValid = true ∧ decode s.pins.cmd = some i ∧ step s = advanced (exec i s)) ∨
    (s.pins.rst = false ∧ s.pins.cmdValid = true ∧ decode s.pins.cmd = none ∧ step s = advanced (execIllegal s)) ∨
    (s.pins.rst = false ∧ s.pins.cmdValid = false ∧ step s = .next s.idleRegs.advance) := by
  cases hr : s.pins.rst
  · cases hv : s.pins.cmdValid
    · exact .inr (.inr (.inr ⟨rfl, rfl, step_idle hr hv⟩))
    · cases hd : decode s.pins.cmd with
      | none => exact .inr (.inr (.inl ⟨rfl, rfl, rfl, step_illegal hr hv hd⟩))
      | some i => exact .inr (.inl ⟨i, rfl, rfl, rfl, step_command hr hv hd⟩)
  · exact .inl ⟨rfl, step_reset hr⟩

/-- What the payload read interface carries for a read of at most 64 bits (20_memory.md R46). -/
theorem ReadRequest.answer_toNat (p : Payload) {r : ReadRequest} (h : r.w ≤ 64) :
    (r.answer p).toNat = ubits p r.off r.w := by
  rw [answer, BitVec.toNat_ofNat]
  exact Nat.mod_eq_of_lt (Nat.lt_of_lt_of_le (ubits_lt ..) (Nat.pow_le_pow_right (by decide) h))

theorem ReadRequest.lines_pbW_toNat {r : ReadRequest} (h : r.w ≤ 64) : r.lines.pbW.toNat = r.w := by
  simp only [lines, BitVec.toNat_ofNat]
  omega

theorem ReadRequest.lines_pbOff_toNat {r : ReadRequest} (h : r.off < 2 ^ 13) : r.lines.pbOff.toNat = r.off := by
  simp only [lines, if_pos h, BitVec.toNat_ofNat]
  exact Nat.mod_eq_of_lt h

/-- Which reads a command makes depends on no payload bit. -/
theorem instrReads_congr (i : Instr) (s : State) {q : Payload} (h : sameShape s.pins.payload q) :
    instrReads i (s.withPayload q) = instrReads i s := by
  obtain ⟨hc, hp, ha⟩ := h
  cases i <;> simp [instrReads, hdrReads, dispReads, peekReads, fieldReads, textReads, headerTooShort, inBounds,
    usable_congr hc hp, inputStatus_congr hp ha, hc]

/-- The reads of the cycle, by the pins of its edge. -/
theorem State.requests_command {s : State} {i : Instr} (h1 : s.pins.rst = false) (h2 : s.pins.cmdValid = true)
    (h3 : decode s.pins.cmd = some i) : s.requests = instrReads i s := by
  simp [requests, h1, h2, h3]

theorem State.requests_none {s : State} (h : s.pins.rst = true ∨ s.pins.cmdValid = false ∨ decode s.pins.cmd = none) :
    s.requests = [] := by
  rcases h with h | h | h <;> simp [requests, h]

@[simp] theorem State.outputs_pb (s : State) : s.outputs.pb = s.requests.map ReadRequest.lines := rfl

end Sys2Proof.Machine
end

