-- ==== Sys2Proof/Laws/PerInstr.lean ====
section
/-! SUPPORT. The family EncodesInRow: the word of an instruction is of its own row of spec/opcode_table.json
(30_encoding.md R73). -/

namespace Sys2Proof.Laws.EncodesInRow

/-- The encoded word of `i` is of the row of the opcode table that has its mnemonic. -/
def Statement (i : Instr) : Prop :=
  ∃ r ∈ opcodeTable, r.mnemonic = i.mnemonic ∧ r.covers (encode i).word = true

/-- A format F word is of the row whose match word is that of its kind. -/
theorem wordF_covered {m : String} {kind : BitVec 4} {v : CommandWord} (h : wordF kind false 0 0 = v)
    (sx : Bool) (off : BitVec 12) (wm1 : Six) : OpcodeRow.covers ⟨m, v, 0xFF7C0000⟩ (wordF kind sx off wm1) = true := by
  have := (masked_eq_iff (wordF kind sx off wm1) kind).mpr
    ⟨opField_wordF .., kindField_wordF .., fReserved_wordF ..⟩
  rw [OpcodeRow.covers, this, h, beq_self_eq_true]

theorem nop : Statement .nop := ⟨⟨"NOP", 0x00000000, 0xFFFFFFFF⟩, by decide, rfl, by decide⟩

theorem hdr : Statement .hdr := ⟨⟨"HDR", 0x10000000, 0xFFFFFFFF⟩, by decide, rfl, by decide⟩

theorem disp : Statement .disp := ⟨⟨"DISP", 0x20000000, 0xFFFFFFFF⟩, by decide, rfl, by decide⟩

section
variable (sx : Bool) (off : BitVec 12) (wm1 : Six)

theorem fvalNone : Statement (.fvalNone sx off wm1) :=
  ⟨⟨"FVAL.NONE", 0x30000000, 0xFF7C0000⟩, by decide, rfl, wordF_covered (by decide) sx off wm1⟩

theorem fvalAllOnes : Statement (.fvalAllOnes sx off wm1) :=
  ⟨⟨"FVAL.ALLONES", 0x31000000, 0xFF7C0000⟩, by decide, rfl, wordF_covered (by decide) sx off wm1⟩

theorem fvalEq (k : KOperand) : Statement (.fvalEq sx off wm1 k) :=
  ⟨⟨"FVAL.EQ", 0x32000000, 0xFF7C0000⟩, by decide, rfl, wordF_covered (by decide) sx off wm1⟩

theorem fvalGe (k : KOperand) : Statement (.fvalGe sx off wm1 k) :=
  ⟨⟨"FVAL.GE", 0x33000000, 0xFF7C0000⟩, by decide, rfl, wordF_covered (by decide) sx off wm1⟩

theorem fvalGt (k : KOperand) : Statement (.fvalGt sx off wm1 k) :=
  ⟨⟨"FVAL.GT", 0x34000000, 0xFF7C0000⟩, by decide, rfl, wordF_covered (by decide) sx off wm1⟩

theorem fvalSabs (k : KOperand) : Statement (.fvalSabs sx off wm1 k) :=
  ⟨⟨"FVAL.SABS", 0x35000000, 0xFF7C0000⟩, by decide, rfl, wordF_covered (by decide) sx off wm1⟩

theorem fvalSpecial (k : KOperand) : Statement (.fvalSpecial sx off wm1 k) :=
  ⟨⟨"FVAL.SPECIAL", 0x36000000, 0xFF7C0000⟩, by decide, rfl, wordF_covered (by decide) sx off wm1⟩

theorem fvalFlag (foff : BitVec 12) (pol : Bool) : Statement (.fvalFlag sx off wm1 foff pol) :=
  ⟨⟨"FVAL.FLAG", 0x37000000, 0xFF7C0000⟩, by decide, rfl, wordF_covered (by decide) sx off wm1⟩

theorem fvalText : Statement (.fvalText sx off wm1) :=
  ⟨⟨"FVAL.TEXT", 0x38000000, 0xFF7C0000⟩, by decide, rfl, wordF_covered (by decide) sx off wm1⟩

end

end Sys2Proof.Laws.EncodesInRow
end

