-- ==== Sys2Proof/Tests/Slice0.lean ====
section
/-! SUPPORT. The model's own tests: ill-formed terms refused, words decoded, one edge on a small state, and for every
statement with hypotheses a state and operands that meet them. The expected values are those of spec/95_test_vectors.md (its
vector's name stands at each test) or are worked out by hand from the rule named. -/

namespace Sys2Proof.Tests

open Sys2Proof.Machine

/-! ### Helpers -/

/-- The `n` low bits of a number, the most significant first. -/
def bitsOf (v : Nat) : Nat → List Bool
  | 0 => []
  | n + 1 => v.testBit n :: bitsOf v n

/-- A payload whose `cc * 6` bits are those of a number, bit 0 the most significant. -/
def load (cc : Nat) (pad : BitVec 3) (err : Bool) (v : Nat) : Payload :=
  { charCount := cc, padBits := pad, armorErr := err, bits := PayloadBits.ofBits 0 (bitsOf v (cc * 6)) }

/-- 28 characters, all bits 0 but a field at `off` (95_test_vectors.md L2-F). -/
def withField (off w raw : Nat) : Payload := load 28 0 false (raw * 2 ^ (168 - off - w))

/-- The payload of scenario 1, `177KQJ5000G?tO`K>RA1wUbN0TKH` (L1-1), its bits by the armoring of 20_memory.md R50. -/
def scenario1 : Payload := load 28 0 false 0x471db85a1400005cff1fa1b3a2441fe5a9e0246d8

/-- `61mg=5CcNJ;404h`: type 6, (1, 12), with the given pad (L1-5, L2-D6). -/
def type6 (pad : BitVec 3) : Payload := load 15 pad false 0x6075bcd153ade68b100130

/-- `81mg=5@0FP`: type 8, (1, 26), with the given pad (L2-D9). -/
def type8 (pad : BitVec 3) : Payload := load 10 pad false 0x201d6f3454005a0

/-- `81mg=5@0E@`: type 8, (1, 21) (L2-D10). -/
def type8Unsupported : Payload := load 10 4 false 0x201d6f345400550

/-- One-bits (L2-H, `wwwwwww`). -/
def ones (cc : Nat) (pad : BitVec 3) (err : Bool) : Payload := load cc pad err (2 ^ (cc * 6) - 1)

/-- Registers that no reset and no failure leaves: every one differs from its reset value. -/
def used : Regs :=
  { status := 0x2, rspValid := true, hv := true, msgId := 8, repeatInd := 2, mmsi := 123456789, dv := true, route := 0x08,
    subidx := 5, dac := 200, fi := 26, fvalue := 77, fmiss := true, fspec := true }

/-- A header latched with the given id, nothing else. -/
def headed (id : Six) : Regs := { Regs.reset with hv := true, msgId := id }

/-- A state with a command at the coming edge. -/
def issue (r : Regs) (p : Payload) (w : CommandWord) (k : KOperand) : State :=
  { State.reset with regs := r, pins := { rst := false, cmdValid := true, cmd := ⟨w, k⟩, payload := p } }

/-- A state whose registers and payload are given, the other inputs at rest. -/
def holding (r : Regs) (p : Payload) : State :=
  { State.reset with regs := r, pins := { Pins.rest with payload := p } }

/-- The registers after one edge. -/
def edge (s : State) : Option Regs :=
  match step s with
  | .next t => some t.regs
  | .fault _ => none
  | .refused _ => none

/-- STATUS, FVALUE, FMISS and FSPEC after one edge. -/
def fieldAfter (s : State) : Option (BitVec 4 × BitVec 64 × Bool × Bool) :=
  (edge s).map fun r => (r.status, r.fvalue, r.fmiss, r.fspec)

/-- STATUS, HV, MSG_ID, REPEAT and MMSI after one edge. -/
def headerAfter (s : State) : Option (BitVec 4 × Bool × Six × BitVec 2 × BitVec 30) :=
  (edge s).map fun r => (r.status, r.hv, r.msgId, r.repeatInd, r.mmsi)

/-- STATUS, DV, ROUTE, SUBIDX, DAC and FI after one edge. -/
def verdictAfter (s : State) : Option (BitVec 4 × Bool × Six × Six × Dac × Six) :=
  (edge s).map fun r => (r.status, r.dv, r.route, r.subidx, r.dac, r.fi)

/-! ### Ill-formed terms -/

theorem test_wf_op_reserved :
    Command.opKnown ⟨0x40000000, 0⟩ = false ∧ Command.wf ⟨0x40000000, 0⟩ = false :=
  by decide

theorem test_wf_z_reserved :
    Command.zReservedZero ⟨0x10000001, 0⟩ = false ∧ Command.wf ⟨0x10000001, 0⟩ = false :=
  by decide

theorem test_wf_f_reserved :
    Command.fReservedZero ⟨0x30040000, 0⟩ = false ∧ Command.wf ⟨0x30040000, 0⟩ = false :=
  by decide

theorem test_wf_kind_reserved :
    Command.kindKnown ⟨0x39000000, 0⟩ = false ∧ Command.wf ⟨0x39000000, 0⟩ = false :=
  by decide

theorem test_wf_command_accepts :
    Command.wf ⟨0x33000C89, 0x3FE⟩ = true ∧ Command.wf ⟨0, 7⟩ = true :=
  by decide

theorem test_wf_offset :
    AsmLine.wf (.fval .none false 4096 8 none) = false ∧ AsmLine.wf (.text 4096 1) = false ∧
      AsmLine.wf (.pseudoRaw 4096 1) = false ∧ AsmLine.wf (.pseudoNa 4096 1) = false ∧ AsmLine.wf (.pseudoSraw 4096 1) = false :=
  by decide

theorem test_wf_width :
    AsmLine.wf (.fval .eq true 0 0 (some 1)) = false ∧ AsmLine.wf (.fval .eq true 0 65 (some 1)) = false ∧
      AsmLine.wf (.text 0 0) = false ∧ AsmLine.wf (.text 0 65) = false ∧ AsmLine.wf (.pseudoRaw 0 65) = false :=
  by decide

theorem test_wf_k :
    AsmLine.wf (.fval .ge false 0 8 (some (2 ^ 64))) = false ∧ AsmLine.wf (.fval .none false 0 8 (some 1)) = false ∧
      AsmLine.wf (.fval .allOnes false 0 8 (some 0)) = false ∧ AsmLine.wf (.word 0 (some (2 ^ 64))) = false :=
  by decide

theorem test_wf_flag :
    AsmLine.wf (.flag false 0 8 4096 1) = false ∧ AsmLine.wf (.flag false 0 8 41 2) = false ∧
      AsmLine.wf (.flag false 4096 8 0 0) = false ∧ AsmLine.wf (.flag false 0 0 0 0) = false :=
  by decide

theorem test_wf_word :
    AsmLine.wf (.word (2 ^ 32) none) = false ∧ AsmLine.wf (.word (2 ^ 32 - 1) none) = true :=
  by decide

theorem test_wf_sub6 :
    sub6Admissible [(1, 3), (1, 3)] = false ∧ sub6Admissible [(2, 3)] = false ∧ sub6Admissible [(1, 12)] = false ∧
      sub6Admissible [(1, 28)] = false ∧ sub6Admissible [(1, 30)] = false ∧ sub6Admissible [(1, 3)] = true :=
  by decide

theorem test_wf_sub8 :
    sub8Admissible [] = false ∧ sub8Admissible [(1, 26), (1, 26)] = false ∧ sub8Admissible [(1, 26), (2, 0)] = false ∧
      sub8Admissible [(1, 26), (1, 21)] = false ∧ sub8Admissible [(1, 26), (1, 40)] = false ∧
      sub8Admissible [(1, 26), (200, 23)] = false ∧ sub8Admissible [(1, 26), (200, 24)] = true :=
  by decide

theorem test_wf_table_length :
    sub6Admissible (List.replicate 65 (1, 3)) = false ∧ sub8Admissible (List.replicate 65 (1, 26)) = false :=
  by decide

theorem test_wf_payload :
    Payload.wf 10 (load 0 0 false 0) = true ∧ Payload.wf 2 (ones 4 0 false) = false ∧
      Payload.wf 10 ⟨1, 0, false, [(6, true)]⟩ = false ∧ Payload.wf 10 ⟨1, 0, false, [(5, true), (4, true)]⟩ = false ∧
      Payload.wf 10 ⟨1, 0, false, [(3, false)]⟩ = false :=
  by decide

/-! ### Decoding: words written out from the encodings of 30_encoding.md R61 to R67 -/

/-- op = 0, 1, 2 in bits 31..28, zeros below; K is ignored (L2-C2). -/
theorem test_decode_control :
    decode ⟨0b00000000000000000000000000000000, 0xFFFFFFFFFFFFFFFF⟩ = some .nop ∧
      decode ⟨0b00010000000000000000000000000000, 0⟩ = some .hdr ∧ decode ⟨0b00100000000000000000000000000000, 0⟩ = some .disp :=
  by decide

/-- op 0011, kind 0000, sx 1, reserved 00000, off 42, wm1 7 (P1 step 10). -/
theorem test_decode_none :
    decode ⟨0b0011_0000_1_00000_000000101010_000111, 5⟩ = some (.fvalNone true 42 7) ∧
      decode ⟨0x30800A87, 0⟩ = some (.fvalNone true 42 7) :=
  by decide

/-- kind 0001, off 38, wm1 63 (L2-F7). -/
theorem test_decode_allones :
    decode ⟨0b0011_0001_0_00000_000000100110_111111, 0⟩ = some (.fvalAllOnes false 38 63) ∧
      decode ⟨0x310009BF, 0⟩ = some (.fvalAllOnes false 38 63) :=
  by decide

/-- kind 0010, off 38, wm1 3 (L2-F11). -/
theorem test_decode_eq :
    decode ⟨0b0011_0010_0_00000_000000100110_000011, 0x10⟩ = some (.fvalEq false 38 3 0x10) :=
  by decide

/-- kind 0011, off 50, wm1 9 (P1 step 4). -/
theorem test_decode_ge :
    decode ⟨0b0011_0011_0_00000_000000110010_001001, 0x3FE⟩ = some (.fvalGe false 50 9 0x3FE) :=
  by decide

/-- kind 0100 (L2-F17). -/
theorem test_decode_gt :
    decode ⟨0b0011_0100_0_00000_000000100110_001001, 0x3FE⟩ = some (.fvalGt false 38 9 0x3FE) :=
  by decide

/-- kind 0101, sx 1, all 64 bits of K (L2-F27). -/
theorem test_decode_sabs :
    decode ⟨0b0011_0101_1_00000_000000100110_111111, 0x8000000000000000⟩ = some (.fvalSabs true 38 63 0x8000000000000000) :=
  by decide

/-- kind 0110, off 137, wm1 5 (P1 step 9). -/
theorem test_decode_special :
    decode ⟨0b0011_0110_0_00000_000010001001_000101, 0x3C⟩ = some (.fvalSpecial false 137 5 0x3C) :=
  by decide

/-- kind 0111; K[11:0] = 41, K[12] the polarity, K[63:13] ignored (L2-F32, R67). -/
theorem test_decode_flag :
    decode ⟨0b0011_0111_0_00000_000000101010_000111, 0x1029⟩ = some (.fvalFlag false 42 7 41 true) ∧
      decode ⟨0x37000A87, 0xFFFFFFFFFFFFE029⟩ = some (.fvalFlag false 42 7 41 false) :=
  by decide

/-- kind 1000; wm1 is the character count less one (L2-F44); the largest offset. -/
theorem test_decode_text :
    decode ⟨0b0011_1000_0_00000_000000000000_111111, 0⟩ = some (.fvalText false 0 63) ∧
      decode ⟨0b0011_1000_1_00000_111111111111_000000, 9⟩ = some (.fvalText true 4095 0) :=
  by decide

/-- L2-C3 to L2-C11. -/
theorem test_decode_illegal :
    decode ⟨0x08000000, 0⟩ = none ∧ decode ⟨0x40000000, 0⟩ = none ∧ decode ⟨0xF0000000, 0⟩ = none ∧
      decode ⟨0x10000001, 0⟩ = none ∧ decode ⟨0x20800000, 0⟩ = none ∧ decode ⟨0x39000000, 0⟩ = none ∧
      decode ⟨0x3F000000, 0⟩ = none ∧ decode ⟨0x30040000, 0⟩ = none ∧ decode ⟨0x30400000, 0⟩ = none :=
  by decide

/-- P1 step 5, L2-F32, L2-F38, and P1 step 10 by its pseudo-command (R72). -/
theorem test_assemble :
    (AsmLine.fval .sabs true 61 28 (some 108000000)).assemble = some [⟨0x35800F5B, 0x66FF300⟩] ∧
      (AsmLine.flag false 42 8 41 1).assemble = some [⟨0x37000A87, 0x1029⟩] ∧
      (AsmLine.text 38 20).assemble = some [⟨0x38000993, 0⟩] ∧ (AsmLine.pseudoSraw 42 8).assemble = some [⟨0x30800A87, 0⟩] :=
  by decide

/-- The opcode table's bits, K from bit 32 (log 9). -/
theorem test_table_numbering :
    decodeTableWord 32 0x33000C89 = some (.fvalGe false 50 9 0) ∧ decodeTableWord 96 (0x33000C89 + 0x3FE * 2 ^ 32) =
      some (.fvalGe false 50 9 0x3FE) :=
  by decide

/-! ### One edge -/

/-- L2-C1, with inputs that no other command would accept. -/
theorem test_nop :
    edge (issue used (ones 28 7 true) 0 5) = some { used with status := 0x0, rspValid := true } :=
  by decide

/-- L2-C12. -/
theorem test_illegal :
    edge (issue used (ones 28 7 true) 0x40000000 0) = some { used with status := 0xD, rspValid := true } :=
  by decide

/-- L1-1. -/
theorem test_hdr_scenario1 :
    headerAfter (issue Regs.reset scenario1 0x10000000 0) = some (0x0, true, 1, 0, 477553000) :=
  by decide

/-- L2-H2, L2-H3, L2-H9, L2-H10. -/
theorem test_hdr_edges :
    headerAfter (issue Regs.reset (ones 7 4 false) 0x10000000 0) = some (0x0, true, 63, 3, 1073741823) ∧
      headerAfter (issue used (ones 7 5 false) 0x10000000 0) = some (0x9, false, 0, 0, 0) ∧
      headerAfter (issue used (ones 6 6 true) 0x10000000 0) = some (0xB, false, 0, 0, 0) ∧
      headerAfter (issue used (ones 5 0 true) 0x10000000 0) = some (0xA, false, 0, 0, 0) :=
  ⟨by decide, by decide, by decide, by decide⟩

/-- L2-D6, L2-D8. -/
theorem test_disp_type6 :
    verdictAfter (issue (headed 6) (type6 2) 0x20000000 0) = some (0x2, true, 0x04, 0, 1, 12) ∧
      verdictAfter (issue (headed 6) (type6 3) 0x20000000 0) = some (0x9, false, 0x00, 0, 0, 0) :=
  ⟨by decide, by decide⟩

/-- L2-D9, L2-D10, L2-D3, L2-D5. -/
theorem test_disp_type8 :
    verdictAfter (issue (headed 8) (type8 4) 0x20000000 0) = some (0x0, true, 0x08, 0, 1, 26) ∧
      verdictAfter (issue (headed 8) type8Unsupported 0x20000000 0) = some (0x2, true, 0x07, 0, 1, 21) ∧
      verdictAfter (issue (headed 15) scenario1 0x20000000 0) = some (0x8, false, 0x0D, 0, 0, 0) ∧
      verdictAfter (issue { headed 8 with hv := false } (ones 28 7 true) 0x20000000 0) = some (0xC, false, 0x00, 0, 0, 0) :=
  ⟨by decide, by decide, by decide, by decide⟩

/-- L2-F2, L2-F49. -/
theorem test_none :
    fieldAfter (issue used (withField 38 8 0x80) 0x30800987 0) = some (0x0, 0xFFFFFFFFFFFFFF80, false, false) ∧
      fieldAfter (issue used (ones 28 2 false) 0x30002806 0) = some (0x9, 0, false, false) :=
  ⟨by decide, by decide⟩

/-- L2-F7, L2-F4. -/
theorem test_allones :
    fieldAfter (issue used (withField 38 64 0xFFFFFFFFFFFFFFFF) 0x310009BF 0) = some (0x0, 0, true, false) ∧
      fieldAfter (issue used (withField 38 4 0xE) 0x31000983 0) = some (0x0, 0xE, false, false) :=
  ⟨by decide +kernel, by decide +kernel⟩

/-- L2-F9, L2-F11. -/
theorem test_eq :
    fieldAfter (issue used (withField 38 30 0) 0x3200099D 0) = some (0x0, 0, true, false) ∧
      fieldAfter (issue used (withField 38 4 0xF) 0x32000983 0x10) = some (0x0, 0xF, false, false) :=
  ⟨by decide +kernel, by decide +kernel⟩

/-- L2-F12, L2-F13. -/
theorem test_ge :
    fieldAfter (issue used (withField 38 10 0x3FE) 0x33000989 0x3FE) = some (0x0, 0, true, false) ∧
      fieldAfter (issue used (withField 38 10 0x3FD) 0x33000989 0x3FE) = some (0x0, 0x3FD, false, false) :=
  ⟨by decide, by decide⟩

/-- L2-F17, L2-F18. -/
theorem test_gt :
    fieldAfter (issue used (withField 38 10 0x3FF) 0x34000989 0x3FE) = some (0x0, 0, true, false) ∧
      fieldAfter (issue used (withField 38 10 0x3FE) 0x34000989 0x3FE) = some (0x0, 0x3FE, false, false) :=
  ⟨by decide, by decide⟩

/-- L2-F21, L2-F22. -/
theorem test_sabs :
    fieldAfter (issue used (withField 38 27 0x4C80680) 0x3580099A 0x337F980) = some (0x0, 0xFFFFFFFFFCC80680, false, false) ∧
      fieldAfter (issue used (withField 38 27 0x4C8067F) 0x3580099A 0x337F980) = some (0x0, 0, true, false) :=
  ⟨by decide, by decide⟩

/-- L2-F26, L2-F27. -/
theorem test_sabs_most_negative :
    fieldAfter (issue used (withField 38 64 0x8000000000000000) 0x358009BF 0x7FFFFFFFFFFFFFFF) = some (0x0, 0, true, false) ∧
      fieldAfter (issue used (withField 38 64 0x8000000000000000) 0x358009BF 0x8000000000000000) =
        some (0x0, 0x8000000000000000, false, false) :=
  ⟨by decide +kernel, by decide +kernel⟩

/-- L2-F29, L2-F28. -/
theorem test_special :
    fieldAfter (issue used (withField 38 6 0x3C) 0x36000985 0x3C) = some (0x0, 0x3C, false, true) ∧
      fieldAfter (issue used (withField 38 6 0x3B) 0x36000985 0x3C) = some (0x0, 0x3B, false, false) :=
  ⟨by decide, by decide⟩

/-- L2-F32 (bit 41 = 1), L2-F33, L2-F37. -/
theorem test_flag :
    fieldAfter (issue used (withField 41 9 0x17F) 0x37000A87 0x1029) = some (0x0, 0, true, false) ∧
      fieldAfter (issue used (withField 41 9 0x07F) 0x37000A87 0x1029) = some (0x0, 0x7F, false, false) ∧
      fieldAfter (issue used (withField 41 9 0x07F) 0x37000A87 0x10A8) = some (0x9, 0, false, false) :=
  ⟨by decide, by decide, by decide⟩

/-- L2-F38, L2-F39, L2-F43. -/
theorem test_text :
    fieldAfter (issue used (withField 38 120 0) 0x38000993 0) = some (0x0, 0, true, false) ∧
      fieldAfter (issue used (withField 38 120 1) 0x38000993 0) = some (0x0, 0, false, false) ∧
      fieldAfter (issue used (load 27 0 false 0) 0x38000994 0) = some (0x9, 0, false, false) :=
  ⟨by decide +kernel, by decide +kernel, by decide +kernel⟩

/-- L2-R1. -/
theorem test_reset_edge :
    edge { issue used scenario1 0x10000000 0 with pins := { rst := true, cmdValid := true, cmd := ⟨0x10000000, 0⟩, payload := scenario1 } } =
      some Regs.reset :=
  by decide

/-- L2-R3. -/
theorem test_idle_edge :
    edge (holding used scenario1) = some { used with rspValid := false } :=
  by decide

/-- The reads of `HDR` on the payload read interface: offsets 0, 6, 8, widths 6, 2, 30 (20_memory.md R46, R52), and the header of
L1-1 as the answers. -/
theorem test_read_interface :
    (issue used scenario1 0x10000000 0).outputs.pb = [⟨0, 6⟩, ⟨6, 2⟩, ⟨8, 30⟩] ∧
    (issue used scenario1 0x10000000 0).pbData = [1, 0, 477553000] ∧ (issue used scenario1 0x10000001 0).outputs.pb = [] :=
  ⟨by decide, by decide, by decide⟩

/-! ### For every statement with hypotheses, a state and operands that meet them all; one line per clause -/

/-- A payload of one shape with `scenario1` that differs from it in the last bit, which is not in the header. -/
def scenario1LastBit : Payload := load 28 0 false 0x471db85a1400005cff1fa1b3a2441fe5a9e0246d9

/-- Scenario 1 in 27 characters and 5 pad bits: 157 usable bits. -/
def padded : Payload := load 27 5 false 0x11c76e16850000173fc7e86ce89107f96a78091b

/-- `padded` with its last pad bit set, and one bit past the buffer. -/
def paddedOther : Payload := { padded with bits := (padded.bits.setBit 161 (! padded.bits.read 161)).setBit 500 true }

/-- A command at the coming edge and one at the edge after it. -/
def twoCommands (p : Payload) (w v : CommandWord) : State :=
  { issue used p w 0 with later := [{ rst := false, cmdValid := true, cmd := ⟨v, 0⟩, payload := p }] }

/-- The given inputs of `rst` and `cmd_valid` over used registers. -/
def driven (rst valid : Bool) : State :=
  { issue used scenario1 0x10000000 0 with
    pins := { rst := rst, cmdValid := valid, cmd := ⟨0x10000000, 0⟩, payload := scenario1 } }

theorem witness_EncodeOfDecodeRestoresCommand :
    decode ⟨0x37000A87, 0xFFFFFFFFFFFFF029⟩ = some (.fvalFlag false 42 7 41 true) := by decide

theorem witness_DecodeFollowsOpcodeTable :
    decode ⟨0x38FC0000, 0⟩ = none ∧ decode ⟨0x3883FFFF, 0⟩ = some (.fvalText true 4095 63) ∧
    (⟨"FVAL.TEXT", 0x38000000, 0xFF7C0000⟩ : OpcodeRow) ∈ opcodeTable ∧
    (0x3883FFFF : CommandWord) &&& 0xFF7C0000 = 0x38000000 ∧
    (∀ r ∈ opcodeTable, (0x39000000 : CommandWord) &&& r.mask ≠ r.matchBits) := by
  refine ⟨by decide, by decide, by decide, by decide, by decide⟩

/-- Every `FVAL` word of the map has bit 29 set; the reserved operation 4 has it clear. -/
theorem witness_CommandMapIsComplete :
    (0x40000000 : CommandWord) ≠ 0x00000000 ∧ (0x40000000 : CommandWord) ≠ 0x10000000 ∧
    (0x40000000 : CommandWord) ≠ 0x20000000 ∧
    ∀ (kind : BitVec 4) (sx : Bool) (off : BitVec 12) (wm1 : Six), kind.toNat ≤ 8 →
      (0x40000000 : CommandWord) ≠ fvalWordOf kind sx off wm1 := by
  refine ⟨by decide, by decide, by decide, fun kind sx off wm1 _ h => ?_⟩
  have h := congrArg (fun v : CommandWord => v.getLsbD 29) h
  simp [fvalWordOf] at h

/-- The four grounds at their boundary words, and an illegal command at an edge. -/
theorem witness_IllegalCommandsAreTheReservedOnes :
    (decode ⟨0x40000000, 0⟩ = none ∧ 4 ≤ (0x40000000 : CommandWord).toNat / 2 ^ 28) ∧
    (decode ⟨0x39000000, 0⟩ = none ∧ 9 ≤ (0x39000000 : CommandWord).toNat / 2 ^ 24 % 16) ∧
    (decode ⟨0x20000001, 0⟩ = none ∧ (0x20000001 : CommandWord).toNat % 2 ^ 28 ≠ 0) ∧
    (decode ⟨0x30400000, 0⟩ = none ∧ (0x30400000 : CommandWord).toNat / 2 ^ 18 % 32 ≠ 0) ∧
    (issue used scenario1 0xF0000000 0).pins.rst = false ∧ (issue used scenario1 0xF0000000 0).pins.cmdValid = true ∧
    decode (issue used scenario1 0xF0000000 0).pins.cmd = none := by
  refine ⟨by decide, by decide, by decide, by decide, rfl, rfl, by decide⟩

theorem witness_UnusedKBitsAreIgnored :
    decode ⟨0x37000A87, 0x1029⟩ = some (.fvalFlag false 42 7 41 true) ∧
    (0x3029 : KOperand).toNat % 2 ^ usedKBits (.fvalFlag false 42 7 41 true) =
      (0x1029 : KOperand).toNat % 2 ^ usedKBits (.fvalFlag false 42 7 41 true) ∧
    decode ⟨0x10000001, 0x1029⟩ = none := by
  refine ⟨by decide, by decide, by decide⟩

/-- An operand out of range, and for each line form its largest operands. -/
theorem witness_AssemblerFollowsEncodingFormula :
    (AsmLine.fval .eq true 4096 64 none).wf = false ∧ (AsmLine.fval .special true 4095 64 (some (2 ^ 64 - 1))).wf = true ∧
    (AsmLine.fval .none false 0 1 none).wf = true ∧ (AsmLine.flag true 4095 64 4095 1).wf = true ∧
    (AsmLine.text 4095 64).wf = true ∧ (AsmLine.word (2 ^ 32 - 1) (some (2 ^ 64 - 1))).wf = true := by
  refine ⟨by decide, by decide, by decide, by decide, by decide, by decide⟩

/-- With nothing to follow, and with a command to follow. -/
theorem witness_StepRunsTheDecodedCommand :
    ((issue used scenario1 0x33000C89 0x3FE).pins.rst = false ∧ (issue used scenario1 0x33000C89 0x3FE).pins.cmdValid = true ∧
      decode (issue used scenario1 0x33000C89 0x3FE).pins.cmd = some (.fvalGe false 50 9 0x3FE) ∧
      (issue used scenario1 0x33000C89 0x3FE).later = []) ∧
    ((twoCommands scenario1 0x10000000 0x20000000).pins.rst = false ∧
      (twoCommands scenario1 0x10000000 0x20000000).pins.cmdValid = true ∧
      decode (twoCommands scenario1 0x10000000 0x20000000).pins.cmd = some .hdr ∧
      (twoCommands scenario1 0x10000000 0x20000000).later =
        [⟨false, true, ⟨0x20000000, 0⟩, scenario1⟩]) := by
  refine ⟨⟨rfl, rfl, by decide, rfl⟩, rfl, rfl, by decide, rfl⟩

theorem witness_PresentedWordRunsNext : decodeTableWord 32 0x10000000 = some .hdr := by decide

theorem witness_IllegalCommandWritesStatusOnly :
    (issue used (ones 28 7 true) 0x30040000 0).pins.rst = false ∧
    (issue used (ones 28 7 true) 0x30040000 0).pins.cmdValid = true ∧
    decode (issue used (ones 28 7 true) 0x30040000 0).pins.cmd = none := by
  refine ⟨rfl, rfl, by decide⟩

theorem witness_ResetEdgeResetsEveryRegister : (driven true true).pins.rst = true := rfl

theorem witness_IdleEdgeHoldsRegisters :
    (driven false false).pins.rst = false ∧ (driven false false).pins.cmdValid = false := ⟨rfl, rfl⟩

/-- An edge that accepts, one that is idle, one that resets. -/
theorem witness_RspValidMarksAcceptedEdges :
    (∃ t, step (driven false true) = .next t) ∧ (∃ t, step (driven false false) = .next t) ∧
    (∃ t, step (driven true true) = .next t) := ⟨⟨_, rfl⟩, ⟨_, rfl⟩, ⟨_, rfl⟩⟩

theorem witness_ConfigurationIsConstant : ∃ t, step (driven true true) = .next t := ⟨_, rfl⟩

/-- Registers that hold a header, its verdict and a special field. -/
def verdictRegs : Regs :=
  { status := 0x0, rspValid := true, hv := true, msgId := 8, repeatInd := 1, mmsi := 5, dv := true, route := 0x08,
    subidx := 0, dac := 1, fi := 26, fvalue := 61, fmiss := false, fspec := true }

/-- A verdict, a special field and a command to come. -/
def verdictState : State :=
  { issue verdictRegs scenario1 0x10000000 0 with
    later := [{ rst := false, cmdValid := true, cmd := ⟨0x20000000, 0⟩, payload := type8 4 }] }

theorem witness_EveryEdgeKeepsInvariant : verdictState.Inv ∧ ∃ t, step verdictState = .next t :=
  ⟨⟨by decide, by decide +kernel, by decide, by decide, by decide, ⟨by decide, by decide⟩, by decide⟩, _, rfl⟩

theorem witness_DispRightAfterHdrSeesHeader :
    (twoCommands scenario1 0x10000000 0x20000000).pins.cmd.word = 0x10000000 ∧ readable scenario1 ∧ 38 ≤ usable scenario1 ∧
    (twoCommands scenario1 0x10000000 0x20000000).later = [⟨false, true, ⟨0x20000000, 0⟩, scenario1⟩] ∧
    (ubits scenario1 0 6, 0x01) ∈ routedIds := by
  refine ⟨rfl, by decide, by decide, rfl, by decide⟩

/-- A flag's two reads, the peek's, and a command that ends with INSUFFICIENT_BITS. -/
theorem witness_ReadsStayInBounds :
    instrReads (.fvalFlag false 42 7 167 true) (holding used scenario1) = [⟨42, 8⟩, ⟨167, 1⟩] ∧
    instrReads .disp (holding (headed 6) (type6 2)) = [⟨72, 10⟩, ⟨82, 6⟩] ∧
    (∃ t, exec .hdr (holding used (ones 7 5 false)) = .next t ∧ t.regs.status = 0x9) := by
  refine ⟨by decide, by decide, ⟨_, rfl, by decide⟩⟩

/-- A legal command whose last read ends at U, a reset edge with a command, an idle edge, and an illegal command. -/
theorem witness_PbPortCarriesReads :
    ((issue used scenario1 0x37000A87 0x10A7).pins.rst = false ∧ (issue used scenario1 0x37000A87 0x10A7).pins.cmdValid = true ∧
      decode (issue used scenario1 0x37000A87 0x10A7).pins.cmd = some (.fvalFlag false 42 7 167 true) ∧
      (instrReads (.fvalFlag false 42 7 167 true) (issue used scenario1 0x37000A87 0x10A7))[1]? = some ⟨167, 1⟩ ∧
      scenario1.charCount < 1024) ∧
    (driven true true).pins.rst = true ∧ (driven false false).pins.cmdValid = false ∧
    decode (issue used scenario1 0x30040000 0).pins.cmd = none := by
  refine ⟨⟨rfl, rfl, by decide, by decide, by decide⟩, rfl, rfl, by decide⟩

/-- Another payload of one shape with the same answers to the reads of `HDR`. -/
theorem witness_EdgeTakesPayloadThroughPbData :
    sameShape scenario1 scenario1LastBit ∧ scenario1LastBit ≠ scenario1 ∧
    ((issue used scenario1 0x10000000 0).withPayload scenario1LastBit).pbData = (issue used scenario1 0x10000000 0).pbData ∧
    ∃ t, step (issue used scenario1 0x10000000 0) = .next t := by
  refine ⟨by decide, by decide, by decide, ⟨_, rfl⟩⟩

theorem witness_CommandsDependOnRequestedBitsOnly :
    agreeOn (instrReads .hdr (holding used scenario1)) scenario1 scenario1LastBit ∧ scenario1LastBit ≠ scenario1 ∧
    ∃ t, exec .hdr (holding used scenario1) = .next t := by
  refine ⟨⟨by decide, ?_⟩, by decide, ⟨_, rfl⟩⟩
  have hr : instrReads .hdr (holding used scenario1) = [⟨0, 6⟩, ⟨6, 2⟩, ⟨8, 30⟩] := by decide
  have hb : ∀ k < 38, pbit scenario1LastBit k = pbit scenario1 k := by decide
  intro r h k h1 h2
  rw [hr] at h
  simp only [List.mem_cons, List.not_mem_nil, or_false] at h
  apply hb
  rcases h with rfl | rfl | rfl
  · exact Nat.lt_of_lt_of_le h2 (by decide)
  · exact Nat.lt_of_lt_of_le h2 (by decide)
  · exact Nat.lt_of_lt_of_le h2 (by decide)

theorem witness_BitsPastUsableNeverMatter :
    sameShape padded paddedOther ∧ (∀ k : Nat, (k : Int) < usable padded → pbit paddedOther k = pbit padded k) ∧
    pbit paddedOther 161 ≠ pbit padded 161 ∧ pbit paddedOther 500 ≠ pbit padded 500 ∧
    ∃ t, step (issue used padded 0x10000000 0) = .next t := by
  refine ⟨by decide, fun k h => ?_, by decide, by decide, ⟨_, rfl⟩⟩
  have hu : usable padded = 157 := by decide
  have h1 : k ≠ 161 ∧ k ≠ 500 := by omega
  have hw : padded.bits.wf = true := PayloadBits.ofBits_wf ..
  rw [pbit, paddedOther, PayloadBits.read_setBit (PayloadBits.setBit_wf hw ..), PayloadBits.read_setBit hw, if_neg h1.2,
    if_neg h1.1, pbit]

theorem witness_ResultsDependOnHeaderLatchOnly :
    (headed 8).hv = used.hv ∧ (headed 8).msgId = used.msgId ∧ headed 8 ≠ used ∧
    (∃ t, exec .disp (holding used (type8 4)) = .next t) ∧
    (∃ u, exec .disp { holding used (type8 4) with regs := headed 8 } = .next u) ∧
    (∃ t, exec (.fvalText false 38 19) (holding used scenario1) = .next t) := by
  refine ⟨by decide, by decide, by decide, ⟨_, rfl⟩, ⟨_, rfl⟩, ⟨_, rfl⟩⟩

theorem witness_StatusFollowsPriority :
    (issue used (ones 6 7 true) 0x40000000 0).pins.rst = false ∧ (issue used (ones 6 7 true) 0x40000000 0).pins.cmdValid = true ∧
    decode (issue used (ones 6 7 true) 0x40000000 0).pins.cmd = none := by
  refine ⟨rfl, rfl, by decide⟩

/-- A hard status of `HDR`, of `DISP` (with and without the UNSUPPORTED route) and of `FVAL`; a soft status of each. -/
theorem witness_HardStatusLeavesFailureValues :
    (∃ t, exec .hdr (holding used (ones 7 5 false)) = .next t ∧ t.regs.status.getLsbD 3 = true) ∧
    (∃ t, exec .disp (holding (headed 19) scenario1) = .next t ∧ t.regs.status = 0x8) ∧
    (∃ t, exec .disp (holding Regs.reset scenario1) = .next t ∧ t.regs.status = 0xC) ∧
    (∃ t, exec (.fvalNone false 161 7) (holding used scenario1) = .next t ∧ t.regs.status.getLsbD 3 = true) ∧
    (∃ t, exec .hdr (holding used scenario1) = .next t ∧ t.regs.status.getLsbD 3 = false) ∧
    (∃ t, exec .disp (holding (headed 6) (type6 2)) = .next t ∧ t.regs.status.getLsbD 3 = false) ∧
    (∃ t, exec (.fvalNone false 160 7) (holding used scenario1) = .next t ∧ t.regs.status.getLsbD 3 = false) := by
  refine ⟨⟨_, rfl, by decide⟩, ⟨_, rfl, by decide⟩, ⟨_, rfl, by decide⟩, ⟨_, rfl, by decide⟩, ⟨_, rfl, by decide⟩,
    ⟨_, rfl, by decide⟩, ⟨_, rfl, by decide⟩⟩

/-- Exactly 7 characters and 38 bits, and one bit fewer, a pad count of 6, and a malformed character. -/
theorem witness_HdrLatchesHeaderOrFails :
    (readable (ones 7 4 false) ∧ 7 ≤ (ones 7 4 false).charCount ∧
      38 ≤ ((ones 7 4 false).charCount : Int) * 6 - ((ones 7 4 false).padBits.toNat : Int)) ∧
    ¬ (readable (ones 7 5 false) ∧ 7 ≤ (ones 7 5 false).charCount ∧
      38 ≤ ((ones 7 5 false).charCount : Int) * 6 - ((ones 7 5 false).padBits.toNat : Int)) ∧
    ¬ readable (ones 28 6 true) ∧ ¬ readable (ones 28 0 true) := by
  refine ⟨by decide, by decide, by decide, by decide⟩

/-- One payload for each clause, `(char_count, pad_bits)` = (7, 4), (7, 4), (7, 5), (6, 0) and (0, 3). -/
theorem witness_HdrLengthEdges :
    ((ones 7 4 false).armorErr = false ∧ (ones 7 4 false).padBits.toNat ≤ 5 ∧ 38 ≤ usable (ones 7 4 false)) ∧
    ((ones 7 4 false).charCount = 7 ∧ (ones 7 4 false).padBits.toNat ≤ 4) ∧
    ((ones 7 5 false).armorErr = false ∧ (ones 7 5 false).charCount = 7 ∧ (ones 7 5 false).padBits = 5) ∧
    ((ones 6 0 false).armorErr = false ∧ (ones 6 0 false).charCount = 6 ∧ (ones 6 0 false).padBits = 0) ∧
    ((ones 0 3 false).armorErr = false ∧ (ones 0 3 false).charCount = 0 ∧ (ones 0 3 false).padBits = 3) := by
  refine ⟨by decide, by decide, by decide, by decide, by decide⟩

theorem witness_HdrAcceptsAnyHeaderContents :
    sameShape (ones 28 0 false) scenario1 ∧ (∃ t, exec .hdr (holding used (ones 28 0 false)) = .next t) ∧
    (∃ u, exec .hdr ((holding used (ones 28 0 false)).withPayload scenario1) = .next u) := by
  refine ⟨by decide, ⟨_, rfl⟩, ⟨_, rfl⟩⟩

theorem witness_DispWithoutHeader : (holding Regs.reset (ones 28 7 true)).regs.hv = false := rfl

/-- An id of each clause: routed (1 and 27), 6 and 8 with exactly the peek's bits, 15, 19, and unknown (0, 28, 63). -/
theorem witness_DispRouteTable :
    readable scenario1 ∧ (headed 1).hv = true ∧ ((headed 1).msgId.toNat, 0x01) ∈ routedIds ∧
    ((headed 27).msgId.toNat, 0x18) ∈ routedIds ∧
    (readable (type6 2) ∧ (holding (headed 6) (type6 2)).regs.msgId = 6 ∧
      ((holding (headed 6) (type6 2)).cfg.dacfiOff6 : Int) + 16 ≤ usable (type6 2)) ∧
    (readable (type8 4) ∧ (holding (headed 8) (type8 4)).regs.msgId = 8 ∧
      ((holding (headed 8) (type8 4)).cfg.dacfiOff8 : Int) + 16 ≤ usable (type8 4)) ∧
    ((headed 15).msgId = 15 ∧ (headed 19).msgId = 19) ∧
    (unknownId (headed 0).msgId.toNat ∧ unknownId (headed 28).msgId.toNat ∧ unknownId (headed 63).msgId.toNat) := by
  refine ⟨by decide, by decide, by decide, by decide, by decide, by decide, by decide, by decide⟩

theorem witness_DispRoutesCatalogIds :
    (headed 1).hv = true ∧ readable (ones 7 0 false) ∧ ((headed 1).msgId.toNat, 0x01) ∈ routedIds ∧
    ((headed 27).msgId.toNat, 0x18) ∈ routedIds := by
  refine ⟨by decide, by decide, by decide, by decide⟩

theorem witness_DispUnsupportedIds :
    (headed 15).hv = true ∧ readable scenario1 ∧ ((headed 15).msgId = 15 ∨ (headed 15).msgId = 19) ∧
    ((headed 19).msgId = 15 ∨ (headed 19).msgId = 19) := by
  refine ⟨by decide, by decide, by decide, by decide⟩

theorem witness_DispUnknownIds :
    (headed 0).hv = true ∧ readable (load 7 0 false 0) ∧ unknownId (headed 0).msgId.toNat ∧ unknownId (headed 28).msgId.toNat ∧
    unknownId (headed 63).msgId.toNat := by
  refine ⟨by decide, by decide, by decide, by decide, by decide⟩

/-- One usable bit short of the peek, for both ids (L2-D8, L2-D12). -/
theorem witness_DispPeekNeedsSixteenBits :
    (readable (type6 3) ∧ (holding (headed 6) (type6 3)).regs.msgId = 6 ∧
      usable (type6 3) < ((holding (headed 6) (type6 3)).cfg.dacfiOff6 : Int) + 16) ∧
    (readable (type8 5) ∧ (holding (headed 8) (type8 5)).regs.msgId = 8 ∧
      usable (type8 5) < ((holding (headed 8) (type8 5)).cfg.dacfiOff8 : Int) + 16) := by
  refine ⟨by decide, by decide⟩

/-- A configuration with two sub-types of each id. -/
def twoSubtypes : Config := { sub6 := [(1, 3), (1, 13)], sub8 := [(200, 10), (1, 26)] }

/-- Type 6 with (1, 13) instead of (1, 12): bits 82 to 87 are the last before the two pad bits. -/
def type6Known : Payload := load 15 2 false 0x6075bcd153ade68b100134

/-- The second entry of each table, with exactly the peek's bits. -/
theorem witness_DispKnownSubtypes :
    (readable type6Known ∧ (twoSubtypes.dacfiOff6 : Int) + 16 ≤ usable type6Known ∧
      peeks type6Known twoSubtypes.dacfiOff6 (1, 13) ∧ twoSubtypes.sub6[1]? = some (1, 13) ∧
      ∀ m, m < 1 → twoSubtypes.sub6[m]? ≠ some (1, 13)) ∧
    (readable (type8 4) ∧ (twoSubtypes.dacfiOff8 : Int) + 16 ≤ usable (type8 4) ∧
      peeks (type8 4) twoSubtypes.dacfiOff8 (1, 26) ∧ twoSubtypes.sub8[1]? = some (1, 26) ∧
      ∀ m, m < 1 → twoSubtypes.sub8[m]? ≠ some (1, 26)) := by
  refine ⟨by decide, by decide⟩

theorem witness_DispUnknownSubtypes :
    (readable (type6 2) ∧ (twoSubtypes.dacfiOff6 : Int) + 16 ≤ usable (type6 2) ∧ peeks (type6 2) twoSubtypes.dacfiOff6 (1, 12) ∧
      ((1, 12) : SubType) ∉ twoSubtypes.sub6) ∧
    (readable type8Unsupported ∧ (twoSubtypes.dacfiOff8 : Int) + 16 ≤ usable type8Unsupported ∧
      peeks type8Unsupported twoSubtypes.dacfiOff8 (1, 21) ∧ ((1, 21) : SubType) ∉ twoSubtypes.sub8) := by
  refine ⟨by decide, by decide⟩

theorem witness_DispExplicitlyUnsupportedSubtypes :
    twoSubtypes.wf = true ∧
    (readable (type6 2) ∧ (twoSubtypes.dacfiOff6 : Int) + 16 ≤ usable (type6 2) ∧ peeks (type6 2) twoSubtypes.dacfiOff6 (1, 12)) ∧
    (readable type8Unsupported ∧ (twoSubtypes.dacfiOff8 : Int) + 16 ≤ usable type8Unsupported ∧
      peeks type8Unsupported twoSubtypes.dacfiOff8 (1, 21)) := by
  refine ⟨by decide, by decide, by decide⟩

theorem witness_DispIsRepeatable : ∃ t, exec .disp (holding (headed 6) (type6 2)) = .next t := ⟨_, rfl⟩

theorem witness_DispReadsPayloadForTwoIdsOnly :
    (headed 27).msgId ≠ 6 ∧ (headed 27).msgId ≠ 8 ∧ readable scenario1 ∧ readable (load 0 5 false 0) ∧
    ∃ t, exec .disp (holding (headed 27) scenario1) = .next t := by
  refine ⟨by decide, by decide, by decide, by decide, ⟨_, rfl⟩⟩

/-- For R101: a 64-bit field that ends at U. -/
theorem witness_FvalNoneReadsField : readable scenario1 ∧
    ((104 : BitVec 12).toNat : Int) + (((63 : Six).toNat : Int) + 1) ≤ usable scenario1 ∧
    ubits scenario1 (104 : BitVec 12).toNat ((63 : Six).toNat + 1) = 0xb3a2441fe5a9e0246d8 % 2 ^ 64 := by
  refine ⟨by decide, by decide, by decide +kernel⟩

theorem witness_FvalAllOnesSentinel : readable (ones 28 0 false) ∧
    ((104 : BitVec 12).toNat : Int) + (((63 : Six).toNat : Int) + 1) ≤ usable (ones 28 0 false) ∧
    ubits (ones 28 0 false) (104 : BitVec 12).toNat ((63 : Six).toNat + 1) = 2 ^ 64 - 1 := by
  refine ⟨by decide, by decide, by decide +kernel⟩

/-- For R103: raw = K. -/
theorem witness_FvalEqSentinel : readable (withField 38 4 0xF) ∧
    ((38 : BitVec 12).toNat : Int) + (((3 : Six).toNat : Int) + 1) ≤ usable (withField 38 4 0xF) ∧
    ubits (withField 38 4 0xF) (38 : BitVec 12).toNat ((3 : Six).toNat + 1) = (0xF : KOperand).toNat := by
  refine ⟨by decide, by decide, by decide⟩

/-- For R104 and R105: raw at the bound, where the two differ. -/
theorem witness_FvalGeSentinel : readable (withField 38 10 0x3FE) ∧
    ((38 : BitVec 12).toNat : Int) + (((9 : Six).toNat : Int) + 1) ≤ usable (withField 38 10 0x3FE) ∧
    ubits (withField 38 10 0x3FE) (38 : BitVec 12).toNat ((9 : Six).toNat + 1) = (0x3FE : KOperand).toNat := by
  refine ⟨by decide, by decide, by decide⟩

theorem witness_FvalGtSentinel : readable (withField 38 10 0x3FF) ∧
    ((38 : BitVec 12).toNat : Int) + (((9 : Six).toNat : Int) + 1) ≤ usable (withField 38 10 0x3FF) ∧
    ubits (withField 38 10 0x3FF) (38 : BitVec 12).toNat ((9 : Six).toNat + 1) > (0x3FE : KOperand).toNat := by
  refine ⟨by decide, by decide, by decide⟩

/-- For R106: the most negative 64-bit value. -/
theorem witness_FvalSabsBound : readable (withField 38 64 0x8000000000000000) ∧
    ((38 : BitVec 12).toNat : Int) + (((63 : Six).toNat : Int) + 1) ≤ usable (withField 38 64 0x8000000000000000) ∧
    ubits (withField 38 64 0x8000000000000000) (38 : BitVec 12).toNat ((63 : Six).toNat + 1) = 2 ^ 63 := by
  refine ⟨by decide, by decide, by decide +kernel⟩

/-- For R107: the first special value of a UTC second. -/
theorem witness_FvalSpecialBand : readable (withField 38 6 60) ∧
    ((38 : BitVec 12).toNat : Int) + (((5 : Six).toNat : Int) + 1) ≤ usable (withField 38 6 60) ∧
    ubits (withField 38 6 60) (38 : BitVec 12).toNat ((5 : Six).toNat + 1) = (60 : KOperand).toNat := by
  refine ⟨by decide, by decide, by decide⟩

/-- For R108: K with ignored bits set, the last usable flag bit, and the first unusable one. -/
theorem witness_FvalFlagBit : readable scenario1 ∧
    ((42 : BitVec 12).toNat : Int) + (((7 : Six).toNat : Int) + 1) ≤ usable scenario1 ∧
    (0xFFFFFFFFFFFFF0A7 : KOperand).toNat % 2 ^ 13 = (167 : BitVec 12).toNat + true.toNat * 2 ^ 12 ∧
    ((167 : BitVec 12).toNat : Int) < usable scenario1 ∧ usable scenario1 ≤ ((168 : BitVec 12).toNat : Int) := by
  refine ⟨by decide, by decide, by decide, by decide, by decide⟩

/-- For R109: 64 characters that end at U (L2-F44). -/
theorem witness_FvalTextAllPadding : 64 = (63 : Six).toNat + 1 ∧ readable (load 64 0 false 0) ∧
    ((0 : BitVec 12).toNat : Int) + 6 * ((64 : Nat) : Int) ≤ usable (load 64 0 false 0) := by
  refine ⟨by decide, by decide, by decide⟩

/-- One bit past U: by the field, by the text and by the flag bit. -/
theorem witness_FvalOutOfBounds : readable scenario1 ∧
    usable scenario1 < (fvalReach (.fvalNone false 161 7) : Int) ∧ usable scenario1 < (fvalReach (.fvalText false 163 0) : Int) ∧
    usable scenario1 < (fvalReach (.fvalFlag false 42 7 168 true) : Int) := by
  refine ⟨by decide, by decide, by decide, by decide⟩

theorem witness_SxNeverChangesVerdict :
    (∃ t, exec (.fvalSabs true 38 26 54000000) (holding used scenario1) = .next t) ∧
    (Instr.fvalText true 38 19).mnemonic = "FVAL.TEXT" ∧
    (∃ t, exec (.fvalText true 38 19) (holding used scenario1) = .next t) := by
  refine ⟨⟨_, rfl⟩, rfl, ⟨_, rfl⟩⟩

theorem witness_MissingAbortsNothing : isFval (.fvalGe false 38 9 1022) = true ∧
    ∃ t, exec (.fvalGe false 38 9 1022) (holding used (withField 38 10 0x3FE)) = .next t ∧ t.regs.fmiss = true := by
  refine ⟨rfl, ⟨_, rfl, by decide⟩⟩

end Sys2Proof.Tests
end

section
/-! The registers a command reads (00_scope.md R15, 42_field_validate.md R100, 60_exceptions.md R135): one lemma per command says
which status and which values it writes from every register file, and O28 follows. -/

namespace Sys2Proof.Machine

/-- The same state with another register file. -/
def State.withRegs (s : State) (r : Regs) : State := { s with regs := r }

@[simp] theorem State.withRegs_regs (s : State) (r : Regs) : (s.withRegs r).regs = r := rfl
@[simp] theorem State.withRegs_cfg (s : State) (r : Regs) : (s.withRegs r).cfg = s.cfg := rfl
@[simp] theorem State.withRegs_pins (s : State) (r : Regs) : (s.withRegs r).pins = s.pins := rfl
@[simp] theorem State.withRegs_later (s : State) (r : Regs) : (s.withRegs r).later = s.later := rfl

/-! The branches of `HDR`, `DISP` and `FVAL` that the laws of the model do not name one by one. -/

section
variable {s : State}

theorem execHdr_unreadable {st : Status} (h : inputStatus s.pins.payload = some st) :
    execHdr s = respond st Regs.clearHeader s := by
  simp only [execHdr, h]

theorem execHdr_short (h : inputStatus s.pins.payload = none) (hl : headerTooShort s.pins.payload) :
    execHdr s = respond .insufficientBits Regs.clearHeader s := by
  simp only [execHdr, h, if_pos hl]

theorem execHdr_ok (h : inputStatus s.pins.payload = none) (hl : ¬ headerTooShort s.pins.payload) :
    execHdr s = respond .ok (latchHeader s.pins.payload) s := by
  simp only [execHdr, h, if_neg hl]

theorem execDisp_noHeader (hv : s.regs.hv = false) : execDisp s = respond .noHeader Regs.clearDispatch s := by
  rw [execDisp, if_neg (by simp [hv])]

theorem execDisp_unreadable {st : Status} (hv : s.regs.hv = true) (h : inputStatus s.pins.payload = some st) :
    execDisp s = respond st Regs.clearDispatch s := by
  simp only [execDisp, if_pos hv, h]

theorem execDisp_readable (hv : s.regs.hv = true) (h : inputStatus s.pins.payload = none) : execDisp s = routeById s := by
  simp only [execDisp, if_pos hv, h]

variable {sx : Bool} {off w reach n : Nat} {pred : Nat → FieldVerdict}

theorem fvalField_unreadable {st : Status} (h : inputStatus s.pins.payload = some st) :
    fvalField sx off w reach pred s = respond st Regs.clearField s := by
  simp only [fvalField, h]

theorem fvalField_outOfBounds (h : inputStatus s.pins.payload = none) (hb : ¬ inBounds s.pins.payload off w) :
    fvalField sx off w reach pred s = respond .insufficientBits Regs.clearField s := by
  simp only [fvalField, h, if_neg hb]

theorem fvalField_flagOutOfBounds (h : inputStatus s.pins.payload = none) (hb : inBounds s.pins.payload off w)
    (hr : reach ≠ 0 ∧ usable s.pins.payload < (reach : Int)) :
    fvalField sx off w reach pred s = respond .insufficientBits Regs.clearField s := by
  simp only [fvalField, h, if_pos hb, if_pos hr]

theorem fvalChars_unreadable {st : Status} (h : inputStatus s.pins.payload = some st) :
    fvalChars off n s = respond st Regs.clearField s := by
  simp only [fvalChars, h]

theorem fvalChars_outOfBounds (h : inputStatus s.pins.payload = none) (hb : ¬ inBounds s.pins.payload off (6 * n)) :
    fvalChars off n s = respond .insufficientBits Regs.clearField s := by
  simp only [fvalChars, h, if_neg hb]

theorem fvalChars_ok (h : inputStatus s.pins.payload = none) (hb : inBounds s.pins.payload off (6 * n)) :
    fvalChars off n s = respond .ok (Regs.writeField 0 (allPadding s.pins.payload s.cfg.padCode off n) false) s := by
  simp only [fvalChars, h, if_pos hb]

end

/-- The status and the header that `HDR` writes are the same from every register file. -/
theorem execHdr_writes (s : State) : ∃ st hv id rep m, ∀ r : Regs, execHdr (s.withRegs r) =
    respond st (fun q => (q.writeHeader hv id rep m).clearDispatch) (s.withRegs r) := by
  cases h : inputStatus s.pins.payload with
  | some st => exact ⟨st, false, 0, 0, 0, fun r => execHdr_unreadable h⟩
  | none =>
    by_cases hl : headerTooShort s.pins.payload
    · exact ⟨.insufficientBits, false, 0, 0, 0, fun r => execHdr_short h hl⟩
    · exact ⟨.ok, true, BitVec.ofNat 6 (ubits s.pins.payload 0 6), BitVec.ofNat 2 (ubits s.pins.payload 6 2),
        BitVec.ofNat 30 (ubits s.pins.payload 8 30), fun r => execHdr_ok h hl⟩

/-- The verdict of the DAC/FI peek is the same from every register file. -/
theorem peekRoute_writes (base : Nat) (table : List SubType) (known common : Route) (s : State) :
    ∃ st dv ro n d f, ∀ r : Regs, peekRoute base table known common (s.withRegs r) =
      respond st (Regs.writeDispatch dv ro n d f) (s.withRegs r) := by
  by_cases hb : inBounds s.pins.payload base 16
  · cases h : subIndex table (peek s.pins.payload base) with
    | some n => exact ⟨.ok, true, known, BitVec.ofNat 6 n, (peek s.pins.payload base).1, (peek s.pins.payload base).2,
        fun r => peekRoute_known (s := s.withRegs r) hb h⟩
    | none => exact ⟨.unknownSubtype, true, common, 0, (peek s.pins.payload base).1, (peek s.pins.payload base).2,
        fun r => peekRoute_unknown (s := s.withRegs r) hb (subIndex_none_iff.mp h)⟩
  · exact ⟨.insufficientBits, false, .none, 0, 0, 0, fun r => peekRoute_short (s := s.withRegs r) hb⟩

/-- The verdict of the multiplexer reads no register but MSG_ID. -/
theorem routeById_writes (s : State) : ∃ st dv ro n d f, ∀ r : Regs, r.msgId = s.regs.msgId →
    routeById (s.withRegs r) = respond st (Regs.writeDispatch dv ro n d f) (s.withRegs r) := by
  by_cases h6 : s.regs.msgId = 6
  · obtain ⟨st, dv, ro, n, d, f, hw⟩ := peekRoute_writes s.cfg.dacfiOff6 s.cfg.sub6 .bin6Sub .bin6Common s
    exact ⟨st, dv, ro, n, d, f, fun r hid => (routeById_six (hid.trans h6)).trans (hw r)⟩
  by_cases h8 : s.regs.msgId = 8
  · obtain ⟨st, dv, ro, n, d, f, hw⟩ := peekRoute_writes s.cfg.dacfiOff8 s.cfg.sub8 .bin8Sub .bin8Common s
    exact ⟨st, dv, ro, n, d, f, fun r hid => (routeById_eight (hid.trans h8)).trans (hw r)⟩
  by_cases hun : s.regs.msgId = 15 ∨ s.regs.msgId = 19
  · exact ⟨_, _, _, _, _, _, fun r hid => routeById_unsupported (s := s.withRegs r) (by simpa [hid] using hun)⟩
  obtain ⟨h15, h19⟩ := not_or.mp hun
  have other (r : Regs) (hid : r.msgId = s.regs.msgId) := routeById_other (s := s.withRegs r)
    (by simpa [hid] using h6) (by simpa [hid] using h8) (by simpa [hid] using h15) (by simpa [hid] using h19)
  cases ht : routeTable s.regs.msgId.toNat with
  | some ro => exact ⟨.ok, true, ro, 0, 0, 0, fun r hid => by simpa [hid, ht] using other r hid⟩
  | none => exact ⟨.unknownType, true, .unknown, 0, 0, 0, fun r hid => by simpa [hid, ht] using other r hid⟩

/-- The verdict of `DISP` reads no register but HV and MSG_ID. -/
theorem execDisp_writes (s : State) : ∃ st dv ro n d f, ∀ r : Regs, r.hv = s.regs.hv → r.msgId = s.regs.msgId →
    execDisp (s.withRegs r) = respond st (Regs.writeDispatch dv ro n d f) (s.withRegs r) := by
  cases hv : s.regs.hv with
  | false => exact ⟨.noHeader, false, .none, 0, 0, 0, fun r hr _ => execDisp_noHeader hr⟩
  | true =>
    cases h : inputStatus s.pins.payload with
    | some st => exact ⟨st, false, .none, 0, 0, 0, fun r hr _ => execDisp_unreadable hr h⟩
    | none =>
      obtain ⟨st, dv, ro, n, d, f, hw⟩ := routeById_writes s
      exact ⟨st, dv, ro, n, d, f, fun r hr hid => (execDisp_readable (s := s.withRegs r) hr h).trans (hw r hid)⟩

/-- What an `FVAL` of a kind other than TEXT writes is the same from every register file. -/
theorem fvalField_writes (sx : Bool) (off w reach : Nat) (pred : Nat → FieldVerdict) (s : State) :
    ∃ st v m sp, ∀ r : Regs, fvalField sx off w reach pred (s.withRegs r) =
      respond st (Regs.writeField v m sp) (s.withRegs r) := by
  cases h : inputStatus s.pins.payload with
  | some st => exact ⟨st, 0, false, false, fun r => fvalField_unreadable h⟩
  | none =>
    by_cases hb : inBounds s.pins.payload off w
    · by_cases hr : reach ≠ 0 ∧ usable s.pins.payload < (reach : Int)
      · exact ⟨.insufficientBits, 0, false, false, fun r => fvalField_flagOutOfBounds h hb hr⟩
      · let raw := ubits s.pins.payload off w
        exact ⟨.ok, if (pred raw).miss then 0 else extendField sx w raw, (pred raw).miss, (pred raw).special,
          fun r => fvalField_ok (s := s.withRegs r) h hb hr⟩
    · exact ⟨.insufficientBits, 0, false, false, fun r => fvalField_outOfBounds h hb⟩

/-- What `FVAL.TEXT` writes is the same from every register file. -/
theorem fvalChars_writes (off n : Nat) (s : State) :
    ∃ st v m sp, ∀ r : Regs, fvalChars off n (s.withRegs r) = respond st (Regs.writeField v m sp) (s.withRegs r) := by
  cases h : inputStatus s.pins.payload with
  | some st => exact ⟨st, 0, false, false, fun r => fvalChars_unreadable h⟩
  | none =>
    by_cases hb : inBounds s.pins.payload off (6 * n)
    · exact ⟨.ok, 0, allPadding s.pins.payload s.cfg.padCode off n, false, fun r => fvalChars_ok h hb⟩
    · exact ⟨.insufficientBits, 0, false, false, fun r => fvalChars_outOfBounds h hb⟩

/-- `FVAL` of every kind reads no register: it writes one status and one set of field values from every register file. -/
theorem exec_fval_writes {i : Instr} (hi : isFval i = true) (s : State) :
    ∃ st v m sp, ∀ r : Regs, exec i (s.withRegs r) = respond st (Regs.writeField v m sp) (s.withRegs r) := by
  cases i with
  | nop | hdr | disp => cases hi
  | fvalNone sx off wm1 => exact fvalField_writes sx (offsetOf off) (countOf wm1) 0 (fun _ => predNone) s
  | fvalAllOnes sx off wm1 => exact fvalField_writes sx (offsetOf off) (countOf wm1) 0 (predAllOnes (countOf wm1)) s
  | fvalEq sx off wm1 k => exact fvalField_writes sx (offsetOf off) (countOf wm1) 0 (predEq (boundOf k)) s
  | fvalGe sx off wm1 k => exact fvalField_writes sx (offsetOf off) (countOf wm1) 0 (predGe (boundOf k)) s
  | fvalGt sx off wm1 k => exact fvalField_writes sx (offsetOf off) (countOf wm1) 0 (predGt (boundOf k)) s
  | fvalSabs sx off wm1 k => exact fvalField_writes sx (offsetOf off) (countOf wm1) 0 (predSabs (boundOf k) (countOf wm1)) s
  | fvalSpecial sx off wm1 k => exact fvalField_writes sx (offsetOf off) (countOf wm1) 0 (predSpecial (boundOf k)) s
  | fvalFlag sx off wm1 foff pol =>
    exact fvalField_writes sx (offsetOf off) (countOf wm1) (offsetOf foff + 1)
      (fun _ => predFlag (pbit s.pins.payload (offsetOf foff)) pol) s
  | fvalText sx off wm1 => exact fvalChars_writes (offsetOf off) (countOf wm1) s

theorem nop_or_hdr_or_disp_or_isFval (i : Instr) : i = .nop ∨ i = .hdr ∨ i = .disp ∨ isFval i = true := by
  cases i <;> simp [isFval]

/-- Settles O28: by command, each writes from both register files the same status and the same values. -/
theorem resultsDependOnHeaderLatchOnly : Obligations.ResultsDependOnHeaderLatchOnly := by
  intro i s t u r hhv hid ht hu
  rcases nop_or_hdr_or_disp_or_isFval i with rfl | rfl | rfl | hi
  · obtain rfl := respond_inv ht
    obtain rfl := respond_inv hu
    simp [isFval]
  · obtain ⟨st, hv, id, rep, m, hw⟩ := execHdr_writes s
    obtain rfl := respond_inv ((hw s.regs).symm.trans ht)
    obtain rfl := respond_inv ((hw r).symm.trans hu)
    simp [isFval, sameHeader, sameDispatch]
  · obtain ⟨st, dv, ro, n, d, f, hw⟩ := execDisp_writes s
    obtain rfl := respond_inv ((hw s.regs rfl rfl).symm.trans ht)
    obtain rfl := respond_inv ((hw r hhv hid).symm.trans hu)
    simp [isFval, sameDispatch]
  · obtain ⟨st, v, m, sp, hw⟩ := exec_fval_writes hi s
    obtain rfl := respond_inv ((hw s.regs).symm.trans ht)
    obtain rfl := respond_inv ((hw r).symm.trans hu)
    refine ⟨rfl, rfl, ?_, ?_, fun _ => ⟨hw _, rfl, rfl, rfl⟩⟩ <;> rintro rfl <;> cases hi

end Sys2Proof.Machine
end

section
/-! What each command writes (10_state.md R40): a command answers the next state with other registers only, HDR's, DISP's and
FVAL's writes are consistent with the registers they leave alone, and every edge keeps the machine's invariant. -/

namespace Sys2Proof.Machine

/-- The statuses that `HDR` and every `FVAL` can end with (60_exceptions.md R130). -/
theorem code_mem_of_failure {st : Status} (h : st = .padRange ∨ st = .badNmeaChar ∨ st = .insufficientBits) :
    st.code ∈ ([0x0, 0x9, 0xA, 0xB] : List (BitVec 4)) := by
  rcases h with rfl | rfl | rfl <;> decide

theorem statusesOf_isFval {i : Instr} (hi : isFval i = true) : statusesOf i = [0x0, 0x9, 0xA, 0xB] := by
  cases i with
  | nop | hdr | disp => cases hi
  | _ => rfl

theorem statusesOf_subset_produced (i : Instr) : statusesOf i ⊆ producedStatuses := by
  cases i <;> simp only [statusesOf] <;> decide

/-! ### FVAL -/

/-- What an `FVAL` of a kind other than TEXT writes: never a value or FSPEC in a missing field, if its predicate never says missing
and special at once. -/
theorem fvalField_result (sx : Bool) (off w reach : Nat) {pred : Nat → FieldVerdict}
    (hp : ∀ raw, (pred raw).miss = true → (pred raw).special = false) (s : State) :
    ∃ st v m sp, fvalField sx off w reach pred s = respond st (Regs.writeField v m sp) s ∧
      st.code ∈ ([0x0, 0x9, 0xA, 0xB] : List (BitVec 4)) ∧ (m = true → v = 0 ∧ sp = false) := by
  rcases fvalField_cases sx off w reach pred s with ⟨st, hst, he⟩ | ⟨-, -, -, he⟩
  · exact ⟨st, 0, false, false, he, code_mem_of_failure hst, fun h => by cases h⟩
  · exact ⟨_, _, _, _, he, by decide, fun hm => ⟨if_pos hm, hp _ hm⟩⟩

theorem fvalChars_result (off n : Nat) (s : State) :
    ∃ st v m sp, fvalChars off n s = respond st (Regs.writeField v m sp) s ∧
      st.code ∈ ([0x0, 0x9, 0xA, 0xB] : List (BitVec 4)) ∧ (m = true → v = 0 ∧ sp = false) := by
  rcases fvalChars_cases off n s with ⟨st, hst, he⟩ | ⟨-, -, he⟩
  · exact ⟨st, 0, false, false, he, code_mem_of_failure hst, fun h => by cases h⟩
  · exact ⟨_, _, _, _, he, by decide, fun _ => ⟨rfl, rfl⟩⟩

/-- `FVAL` of every kind writes the field registers, and a missing field as 0 and not special (10_state.md R34 to R36). -/
theorem exec_fval_result {i : Instr} (hi : isFval i = true) (s : State) :
    ∃ st v m sp, exec i s = respond st (Regs.writeField v m sp) s ∧ st.code ∈ statusesOf i ∧
      (m = true → v = 0 ∧ sp = false) := by
  rw [statusesOf_isFval hi]
  cases i with
  | nop | hdr | disp => cases hi
  | fvalNone => exact fvalField_result (pred := fun _ => predNone) _ _ _ _ (fun _ _ => rfl) s
  | fvalAllOnes | fvalEq | fvalGe | fvalGt | fvalSabs => exact fvalField_result _ _ _ _ (fun _ _ => rfl) s
  | fvalSpecial => exact fvalField_result _ _ _ _ (fun _ h => by cases h) s
  | fvalFlag _ _ _ foff pol =>
    exact fvalField_result (pred := fun _ => predFlag (pbit s.pins.payload (offsetOf foff)) pol) _ _ _ _ (fun _ _ => rfl) s
  | fvalText => exact fvalChars_result _ _ s

/-! ### HDR -/

/-- `HDR` writes the header registers and zeros in the dispatch registers, and a header of zeros when it leaves HV at 0. -/
theorem execHdr_result (s : State) :
    ∃ st hv id rep m, execHdr s = respond st (fun q => (q.writeHeader hv id rep m).clearDispatch) s ∧
      st.code ∈ statusesOf .hdr ∧ (hv = false → id = 0 ∧ rep = 0 ∧ m = 0) := by
  rcases execHdr_cases s with ⟨st, hst, he⟩ | ⟨-, -, he⟩
  · exact ⟨st, false, 0, 0, 0, he, code_mem_of_failure hst, fun _ => ⟨rfl, rfl, rfl⟩⟩
  · exact ⟨_, _, _, _, _, he, by decide, fun h => by cases h⟩

/-! ### DISP -/

/-- The route table agrees with the rows of R86. -/
theorem mem_routedIds_of_routeTable {id : Nat} {ro : Route} (h : routeTable id = some ro) : (id, ro.code) ∈ routedIds := by
  unfold routeTable at h
  split at h <;> cases h <;> decide

/-- The ids without a route that are neither peeked nor unsupported are the unknown ones. -/
theorem unknownId_of_routeTable_none {id : Six} (h6 : id ≠ 6) (h8 : id ≠ 8) (h15 : id ≠ 15) (h19 : id ≠ 19)
    (h : routeTable id.toNat = none) : unknownId id.toNat := by
  revert id; decide

/-- An admissible table has at most 64 entries, so 6 bits hold every index (00_scope.md R6, R7). -/
theorem Config.sub_length_le {c : Config} (h : c.wf = true) : c.sub6.length ≤ 64 ∧ c.sub8.length ≤ 64 := by
  simp only [Config.wf, sub6Admissible, sub8Admissible, Bool.and_eq_true, decide_eq_true_eq] at h
  obtain ⟨⟨⟨⟨h6, -⟩, -⟩, -⟩, ⟨⟨⟨h8, -⟩, -⟩, -⟩, -⟩ := h
  exact ⟨h6, h8⟩

/-- The index found in a table of at most 64 entries is not cut to 6 bits. -/
theorem getElem?_of_subIndex {table : List SubType} {e : SubType} {n : Nat} (hl : table.length ≤ 64)
    (h : subIndex table e = some n) : table[(BitVec.ofNat 6 n).toNat]? = some e := by
  have he := (subIndex_some h).1
  have hn : n < table.length := (List.getElem?_eq_some_iff.mp he).1
  rwa [BitVec.toNat_ofNat, Nat.mod_eq_of_lt (by omega)]

/-- Cleared dispatch registers are consistent with every header. -/
theorem dispatchConsistent_of_cleared (c : Config) {r : Regs} (h : dispatchCleared 0x00 r) : dispatchConsistent c r := by
  obtain ⟨hdv, hro, hn, hd, hf⟩ := h
  exact ⟨fun h => by simp [hdv] at h, fun _ => ⟨hn, hd, hf, .inl hro⟩⟩

/-- A valid verdict that R86 gives the latched id is consistent. -/
theorem dispatchConsistent_of_verdict {c : Config} {r : Regs} (hdv : r.dv = true) (hv : r.hv = true)
    (h : verdictConsistent c r) : dispatchConsistent c r :=
  ⟨fun _ => ⟨hv, h⟩, fun h => by simp [hdv] at h⟩

/-- The DAC/FI peek leaves dispatch registers that are consistent with the header: cleared, or a peeked pair's verdict, where such a
verdict is one that the latched id may have. -/
theorem peekRoute_result (base : Nat) {table : List SubType} {known common : Route} {s : State} (hv : s.regs.hv = true)
    (hl : s.cfg.wf = true → table.length ≤ 64)
    (hid : ∀ r : Regs, r.msgId = s.regs.msgId → peekConsistent table common.code known.code r → verdictConsistent s.cfg r) :
    ∃ st dv ro n d f, peekRoute base table known common s = respond st (Regs.writeDispatch dv ro n d f) s ∧
      st.code ∈ statusesOf .disp ∧
      (s.cfg.wf = true → dispatchConsistent s.cfg (s.regs.writeDispatch dv ro n d f)) := by
  rcases peekRoute_cases base table known common s with ⟨-, he⟩ | ⟨n, -, hn, he⟩ | ⟨-, hn, he⟩
  · exact ⟨_, _, _, _, _, _, he, by decide, fun _ => dispatchConsistent_of_cleared _ ⟨rfl, rfl, rfl, rfl, rfl⟩⟩
  · exact ⟨_, _, _, _, _, _, he, by decide, fun hwf => dispatchConsistent_of_verdict rfl hv
      (hid _ rfl (.inr ⟨rfl, getElem?_of_subIndex (hl hwf) hn⟩))⟩
  · exact ⟨_, _, _, _, _, _, he, by decide, fun _ => dispatchConsistent_of_verdict rfl hv
      (hid _ rfl (.inl ⟨rfl, rfl, hn⟩))⟩

/-- The multiplexer on MSG_ID leaves dispatch registers that are consistent with the header. -/
theorem routeById_result {s : State} (hv : s.regs.hv = true) :
    ∃ st dv ro n d f, routeById s = respond st (Regs.writeDispatch dv ro n d f) s ∧ st.code ∈ statusesOf .disp ∧
      (s.cfg.wf = true → dispatchConsistent s.cfg (s.regs.writeDispatch dv ro n d f)) := by
  by_cases h6 : s.regs.msgId = 6
  · rw [routeById_six h6]
    exact peekRoute_result _ hv (fun hwf => (Config.sub_length_le hwf).1) (fun _ hr hp => .inl ⟨hr.trans h6, hp⟩)
  by_cases h8 : s.regs.msgId = 8
  · rw [routeById_eight h8]
    exact peekRoute_result _ hv (fun hwf => (Config.sub_length_le hwf).2) (fun _ hr hp => .inr (.inl ⟨hr.trans h8, hp⟩))
  by_cases hun : s.regs.msgId = 15 ∨ s.regs.msgId = 19
  · exact ⟨_, _, _, _, _, _, routeById_unsupported hun, by decide,
      fun _ => ⟨fun h => (by cases h), fun _ => ⟨rfl, rfl, rfl, .inr ⟨rfl, hv, hun⟩⟩⟩⟩
  obtain ⟨h15, h19⟩ := not_or.mp hun
  rcases routeById_other h6 h8 h15 h19 with ⟨ro, hro, he⟩ | ⟨hro, he⟩
  · exact ⟨_, _, _, _, _, _, he, by decide, fun _ => dispatchConsistent_of_verdict rfl hv
      (.inr (.inr ⟨rfl, rfl, rfl, .inl (mem_routedIds_of_routeTable hro)⟩))⟩
  · have hid : unknownId s.regs.msgId.toNat := unknownId_of_routeTable_none h6 h8 h15 h19 hro
    exact ⟨_, _, _, _, _, _, he, by decide, fun _ => dispatchConsistent_of_verdict rfl hv
      (.inr (.inr ⟨rfl, rfl, rfl, .inr ⟨hid, rfl⟩⟩))⟩

/-- `DISP` leaves dispatch registers that are consistent with the header (41_dispatch.md R85, R86). -/
theorem execDisp_result (s : State) :
    ∃ st dv ro n d f, execDisp s = respond st (Regs.writeDispatch dv ro n d f) s ∧ st.code ∈ statusesOf .disp ∧
      (s.cfg.wf = true → dispatchConsistent s.cfg (s.regs.writeDispatch dv ro n d f)) := by
  rcases execDisp_cases s with ⟨-, he⟩ | ⟨st, -, hst, he⟩ | ⟨hv, -, he⟩
  · exact ⟨_, _, _, _, _, _, he, by decide, fun _ => dispatchConsistent_of_cleared _ ⟨rfl, rfl, rfl, rfl, rfl⟩⟩
  · exact ⟨_, _, _, _, _, _, he, by rcases hst with rfl | rfl <;> decide,
      fun _ => dispatchConsistent_of_cleared _ ⟨rfl, rfl, rfl, rfl, rfl⟩⟩
  · rw [he]; exact routeById_result hv

/-! ### Commands and edges -/

/-- Settles O27: by command, from what each one writes. -/
theorem writeMatrixFrame : Obligations.WriteMatrixFrame := by
  constructor
  · intro i s
    rcases nop_or_hdr_or_disp_or_isFval i with rfl | rfl | rfl | hi
    · exact ⟨_, rfl, by simp [statusesOf, isFval, Status.code, sameHeader, sameDispatch, sameField]⟩
    · obtain ⟨st, hv, id, rep, m, he, hst, -⟩ := execHdr_result s
      exact ⟨_, he, by simpa [isFval, sameHeader, dispatchCleared, sameField] using hst⟩
    · obtain ⟨st, dv, ro, n, d, f, he, hst, -⟩ := execDisp_result s
      exact ⟨_, he, by simpa [isFval, sameHeader, dispatchCleared, sameField] using hst⟩
    · obtain ⟨st, v, m, sp, he, hst, -⟩ := exec_fval_result hi s
      have hne : i ≠ .hdr := by rintro rfl; cases hi
      exact ⟨_, he, by simpa [hi, hne, sameHeader, sameDispatch] using hst⟩
  · intro s hr hv hd
    exact ⟨_, step_illegal hr hv hd, by simp [Status.code, sameHeader, sameDispatch, sameField]⟩

/-- Every command keeps the registers consistent. -/
theorem exec_consistent {i : Instr} {s t : State} (hwf : s.cfg.wf = true) (hc : s.regs.Consistent s.cfg)
    (h : exec i s = .next t) : t.regs.Consistent s.cfg := by
  obtain ⟨-, hhead, hdisp, hfield⟩ := hc
  rcases nop_or_hdr_or_disp_or_isFval i with rfl | rfl | rfl | hi
  · obtain rfl := respond_inv h
    exact ⟨statusesOf_subset_produced .nop (List.mem_singleton_self _), hhead, hdisp, hfield⟩
  · obtain ⟨st, hv, id, rep, m, he, hst, hz⟩ := execHdr_result s
    obtain rfl := respond_inv (he.symm.trans h)
    exact ⟨statusesOf_subset_produced _ hst, hz, dispatchConsistent_of_cleared _ ⟨rfl, rfl, rfl, rfl, rfl⟩, hfield⟩
  · obtain ⟨st, dv, ro, n, d, f, he, hst, hd⟩ := execDisp_result s
    obtain rfl := respond_inv (he.symm.trans h)
    exact ⟨statusesOf_subset_produced _ hst, hhead, hd hwf, hfield⟩
  · obtain ⟨st, v, m, sp, he, hst, hm⟩ := exec_fval_result hi s
    obtain rfl := respond_inv (he.symm.trans h)
    exact ⟨statusesOf_subset_produced _ hst, hhead, hdisp, hm⟩

/-- A command changes registers only. -/
theorem exec_next_withRegs (i : Instr) (s : State) : ∃ r, exec i s = .next (s.withRegs r) := by
  obtain ⟨t, ht, hcfg, hpins, hlater, -⟩ := writeMatrixFrame.1 i s
  refine ⟨t.regs, ht.trans ?_⟩
  obtain ⟨c, r, p, l⟩ := t
  cases hcfg; cases hpins; cases hlater
  rfl

/-- All that an edge can leave: the inputs moved on, and the registers of a reset, of a command, of an illegal command, or as they
were but for RSP_VALID. -/
theorem step_next {s t : State} (h : step s = .next t) : ∃ r, t = (s.withRegs r).advance ∧
    (r = Regs.reset ∨ (∃ i, exec i s = .next (s.withRegs r)) ∨ r = s.regs.complete .illegalCmd ∨
      r = { s.regs with rspValid := false }) := by
  rcases step_cases s with ⟨-, he⟩ | ⟨i, -, -, -, he⟩ | ⟨-, -, -, he⟩ | ⟨-, -, he⟩
  · exact ⟨_, Host.Outcome.next.inj (h.symm.trans he), .inl rfl⟩
  · obtain ⟨r, hr⟩ := exec_next_withRegs i s
    rw [hr] at he
    exact ⟨r, Host.Outcome.next.inj (h.symm.trans he), .inr (.inl ⟨i, hr⟩)⟩
  · exact ⟨_, Host.Outcome.next.inj (h.symm.trans he), .inr (.inr (.inl rfl))⟩
  · exact ⟨_, Host.Outcome.next.inj (h.symm.trans he), .inr (.inr (.inr rfl))⟩

/-- Settles O17: an edge changes registers and moves the inputs on, neither of which is the configuration. -/
theorem configurationIsConstant : Obligations.ConfigurationIsConstant := by
  intro s t h
  obtain ⟨r, rfl, -⟩ := step_next h
  simp

/-- The reset registers are consistent in every configuration (70_reset_and_hazards.md R151). -/
theorem Regs.reset_consistent (c : Config) : Regs.reset.Consistent c :=
  ⟨by decide, fun _ => ⟨rfl, rfl, rfl⟩, dispatchConsistent_of_cleared c ⟨rfl, rfl, rfl, rfl, rfl⟩, fun h => by cases h⟩

/-- The invariant is kept when the inputs move on. -/
theorem State.inv_advance {s : State} (h : s.Inv) : s.advance.Inv := by
  obtain ⟨hwf, hp, hl, hr⟩ := h
  cases e : s.later with
  | nil => simpa [State.Inv, e, State.advance_pins_nil s e, State.advance_later_nil s e, Pins.idle] using ⟨hwf, hp, hr⟩
  | cons p ps =>
    rw [e, List.forall_mem_cons] at hl
    simpa [State.Inv, State.advance_pins_cons s e, State.advance_later_cons s e] using ⟨hwf, hl.1, hl.2, hr⟩

/-- Settles O20: every kind of edge leaves consistent registers, and the inputs that move on are the host's admissible ones. -/
theorem everyEdgeKeepsInvariant : Obligations.EveryEdgeKeepsInvariant := by
  rintro s t ⟨hwf, hp, hl, hc⟩ h
  obtain ⟨r, rfl, hr⟩ := step_next h
  have hrc : r.Consistent s.cfg := by
    obtain ⟨hst, hhead, hdisp, hfield⟩ := id hc
    rcases hr with rfl | ⟨i, hi⟩ | rfl | rfl
    · exact Regs.reset_consistent _
    · exact exec_consistent hwf hc hi
    · exact ⟨by simp [producedStatuses, Status.code], hhead, hdisp, hfield⟩
    · exact ⟨hst, hhead, hdisp, hfield⟩
  exact State.inv_advance (s := s.withRegs r) ⟨hwf, hp, hl, hrc⟩

end Sys2Proof.Machine
end

section
/-! The payload read interface (10_state.md R22, 20_memory.md R46, R48): every read a command makes is of an in-bounds field of 1 to
64 bits, and a command takes from the payload bits no more than the fields it reads. -/

namespace Sys2Proof.Machine

/-! ### The reads of a command -/

/-- A read of 1 to 64 bits, all of them below U. -/
abbrev ReadRequest.Bounded (p : Payload) (r : ReadRequest) : Prop := 1 ≤ r.w ∧ r.w ≤ 64 ∧ inBounds p r.off r.w

section
variable {s : State} {r : ReadRequest}

theorem hdrReads_bounded (h : r ∈ hdrReads s) : r.Bounded s.pins.payload := by
  unfold hdrReads at h
  split at h
  · next hc =>
    have hU : 38 ≤ usable s.pins.payload := not_lt.mp (not_or.mp hc.2).2
    simp only [List.mem_cons, List.not_mem_nil, or_false] at h
    rcases h with rfl | rfl | rfl <;> simp only [ReadRequest.Bounded, inBounds] <;> omega
  · cases h

theorem peekReads_bounded {base : Nat} (h : r ∈ peekReads base s) : r.Bounded s.pins.payload := by
  unfold peekReads at h
  split at h
  · next hb =>
    simp only [List.mem_cons, List.not_mem_nil, or_false] at h
    rcases h with rfl | rfl <;> simp only [ReadRequest.Bounded, inBounds] at hb ⊢ <;> omega
  · cases h

theorem dispReads_bounded (h : r ∈ dispReads s) : r.Bounded s.pins.payload := by
  unfold dispReads at h
  split at h
  · split at h
    · exact peekReads_bounded h
    · split at h
      · exact peekReads_bounded h
      · cases h
  · cases h

theorem fieldReads_bounded {off w reach : Nat} {extra : List ReadRequest} (hw : 1 ≤ w ∧ w ≤ 64)
    (hx : ∀ x ∈ extra, x.w = 1 ∧ x.off + 1 = reach) (h : r ∈ fieldReads off w reach extra s) :
    r.Bounded s.pins.payload := by
  unfold fieldReads at h
  split at h
  · next hc =>
    obtain ⟨-, hb, hr⟩ := hc
    rcases List.mem_cons.mp h with rfl | h
    · exact ⟨hw.1, hw.2, hb⟩
    · obtain ⟨h1, h2⟩ := hx r h
      simp only [ReadRequest.Bounded, inBounds]
      omega
  · cases h

theorem textReads_bounded {off n : Nat} (h : r ∈ textReads off n s) : r.Bounded s.pins.payload := by
  unfold textReads at h
  split at h
  · next hc =>
    obtain ⟨j, hj, rfl⟩ := List.mem_map.mp h
    have hjn : j < n := List.mem_range.mp hj
    have hb := hc.2
    simp only [ReadRequest.Bounded, inBounds] at hb ⊢
    omega
  · cases h

theorem countOf_bounds (wm1 : Six) : 1 ≤ countOf wm1 ∧ countOf wm1 ≤ 64 := by
  have := wm1.isLt
  unfold countOf
  omega

/-- Every read is of 1 to 64 bits below U (20_memory.md R46, R48). -/
theorem instrReads_bounded {i : Instr} (h : r ∈ instrReads i s) : r.Bounded s.pins.payload := by
  cases i with
  | nop => cases h
  | hdr => exact hdrReads_bounded h
  | disp => exact dispReads_bounded h
  | fvalNone | fvalAllOnes | fvalEq | fvalGe | fvalGt | fvalSabs | fvalSpecial =>
    exact fieldReads_bounded (countOf_bounds _) (by simp) h
  | fvalFlag => exact fieldReads_bounded (countOf_bounds _) (by simp) h
  | fvalText => exact textReads_bounded h

/-- With a 10-bit `char_count` every bounded offset fits the 13 bits of `pb_off` (R46). -/
theorem ReadRequest.Bounded.off_lt {p : Payload} (h : r.Bounded p) (hc : p.charCount < 1024) : r.off < 2 ^ 13 := by
  obtain ⟨-, -, hb⟩ := h
  simp only [inBounds, usable] at hb
  omega

end

/-- Settles O22: each output port is defined as its register, and the request lines as those of the cycle's reads. -/
theorem outputsShowRegisters : Obligations.OutputsShowRegisters := fun _ => rfl

/-- Settles O59: the ports carry the reads one by one, and the lines are wide enough for a bounded read. -/
theorem pbPortCarriesReads : Obligations.PbPortCarriesReads := by
  constructor
  · intro s i hr hv hd
    have hreq := State.requests_command hr hv hd
    refine ⟨by simp [hreq], by simp [State.pbData, hreq], fun n r hn => ?_⟩
    have hb : r.Bounded s.pins.payload := instrReads_bounded (List.mem_of_getElem? hn)
    exact ⟨r.lines, r.answer s.pins.payload, by simp [hreq, hn], by simp [State.pbData, hreq, hn],
      ReadRequest.lines_pbW_toNat hb.2.1,
      fun h => ReadRequest.lines_pbOff_toNat (h.elim id hb.off_lt), ReadRequest.answer_toNat _ hb.2.1⟩
  · intro s h
    simp [State.pbData, State.requests_none h]

/-! ### What a command takes from the payload -/

/-- The outcomes `x` from `s` and `y` from `u` are one and the same status with the same register writes. -/
def RespondAlike (s u : State) (x y : Host.Outcome State Fault Refusal) : Prop :=
  ∃ st f, x = respond st f s ∧ y = respond st f u

/-- The payloads `p` and `q` have one shape and the same fields at the reads. -/
def SameFields (reads : List ReadRequest) (p q : Payload) : Prop :=
  sameShape p q ∧ ∀ r ∈ reads, ubits q r.off r.w = ubits p r.off r.w

/-- Which fields are in bounds depends on no payload bit. -/
theorem inBounds_congr {p q : Payload} (h : sameShape p q) (off w : Nat) : inBounds q off w ↔ inBounds p off w := by
  rw [inBounds, inBounds, usable_congr h.1 h.2.1]

/-- Equal `pb_data` answers to bounded reads are equal fields. -/
theorem sameFields_of_answers {reads : List ReadRequest} {p q : Payload} (hs : sameShape p q)
    (hw : ∀ r ∈ reads, r.w ≤ 64) (h : reads.map (ReadRequest.answer q) = reads.map (ReadRequest.answer p)) :
    SameFields reads p q := by
  refine ⟨hs, fun r hr => ?_⟩
  rw [← ReadRequest.answer_toNat q (hw r hr), ← ReadRequest.answer_toNat p (hw r hr), List.map_inj_left.mp h r hr]

section
variable {s : State} {q : Payload}

theorem execHdr_alike (h : SameFields (hdrReads s) s.pins.payload q) :
    RespondAlike s (s.withPayload q) (execHdr s) (execHdr (s.withPayload q)) := by
  obtain ⟨⟨hc, hp, ha⟩, hf⟩ := h
  have hin := inputStatus_congr hp ha
  have hlen : headerTooShort q ↔ headerTooShort s.pins.payload := by simp only [headerTooShort, hc, usable_congr hc hp]
  cases e : inputStatus s.pins.payload with
  | some st => exact ⟨_, _, execHdr_unreadable e, execHdr_unreadable (s := s.withPayload q) (hin.trans e)⟩
  | none =>
    by_cases hl : headerTooShort s.pins.payload
    · exact ⟨_, _, execHdr_short e hl, execHdr_short (s := s.withPayload q) (hin.trans e) (hlen.mpr hl)⟩
    · have hlatch : latchHeader q = latchHeader s.pins.payload := by
        simp only [hdrReads, e, hl, not_false_eq_true, and_self, if_true, List.forall_mem_cons] at hf
        obtain ⟨hid, hrep, hm, -⟩ := hf
        funext r
        simp only [latchHeader, hid, hrep, hm]
      refine ⟨_, _, execHdr_ok e hl, ?_⟩
      rw [execHdr_ok (s := s.withPayload q) (hin.trans e) (mt hlen.mp hl)]
      exact congrArg (respond .ok · (s.withPayload q)) hlatch

theorem peekRoute_alike {base : Nat} (table : List SubType) (known common : Route)
    (h : SameFields (peekReads base s) s.pins.payload q) :
    RespondAlike s (s.withPayload q) (peekRoute base table known common s)
      (peekRoute base table known common (s.withPayload q)) := by
  obtain ⟨hs, hf⟩ := h
  have hin := inBounds_congr hs base 16
  by_cases hb : inBounds s.pins.payload base 16
  · have hpeek : peek q base = peek s.pins.payload base := by
      simp only [peekReads, if_pos hb, List.forall_mem_cons] at hf
      obtain ⟨hd, hfi, -⟩ := hf
      simp only [peek, hd, hfi]
    cases e : subIndex table (peek s.pins.payload base) with
    | some n =>
      refine ⟨_, _, peekRoute_known hb e, ?_⟩
      rw [← hpeek] at e ⊢
      exact peekRoute_known (s := s.withPayload q) (hin.mpr hb) e
    | none =>
      refine ⟨_, _, peekRoute_unknown hb (subIndex_none_iff.mp e), ?_⟩
      rw [← hpeek] at e ⊢
      exact peekRoute_unknown (s := s.withPayload q) (hin.mpr hb) (subIndex_none_iff.mp e)
  · exact ⟨_, _, peekRoute_short hb, peekRoute_short (s := s.withPayload q) (mt hin.mp hb)⟩

theorem dispReads_six (hv : s.regs.hv = true) (h : inputStatus s.pins.payload = none) (h6 : s.regs.msgId = 6) :
    dispReads s = peekReads s.cfg.dacfiOff6 s := by
  simp [dispReads, hv, h, h6]

theorem dispReads_eight (hv : s.regs.hv = true) (h : inputStatus s.pins.payload = none) (h8 : s.regs.msgId = 8) :
    dispReads s = peekReads s.cfg.dacfiOff8 s := by
  simp [dispReads, hv, h, h8]

/-- The multiplexer takes from the payload the peeked pair of ids 6 and 8 and nothing for the other ids (41_dispatch.md R93). -/
theorem routeById_alike (hv : s.regs.hv = true) (he : inputStatus s.pins.payload = none)
    (h : SameFields (dispReads s) s.pins.payload q) :
    RespondAlike s (s.withPayload q) (routeById s) (routeById (s.withPayload q)) := by
  by_cases h6 : s.regs.msgId = 6
  · rw [routeById_six h6, routeById_six (s := s.withPayload q) h6]
    exact peekRoute_alike _ _ _ (dispReads_six hv he h6 ▸ h)
  by_cases h8 : s.regs.msgId = 8
  · rw [routeById_eight h8, routeById_eight (s := s.withPayload q) h8]
    exact peekRoute_alike _ _ _ (dispReads_eight hv he h8 ▸ h)
  by_cases hun : s.regs.msgId = 15 ∨ s.regs.msgId = 19
  · exact ⟨_, _, routeById_unsupported hun, routeById_unsupported (s := s.withPayload q) hun⟩
  obtain ⟨h15, h19⟩ := not_or.mp hun
  have other := routeById_other (s := s.withPayload q) h6 h8 h15 h19
  rcases routeById_other h6 h8 h15 h19 with ⟨ro, hro, he⟩ | ⟨hro, he⟩
  · exact ⟨_, _, he, by simpa [hro] using other⟩
  · exact ⟨_, _, he, by simpa [hro] using other⟩

theorem execDisp_alike (h : SameFields (dispReads s) s.pins.payload q) :
    RespondAlike s (s.withPayload q) (execDisp s) (execDisp (s.withPayload q)) := by
  have hin : inputStatus q = inputStatus s.pins.payload := inputStatus_congr h.1.2.1 h.1.2.2
  cases hv : s.regs.hv with
  | false => exact ⟨_, _, execDisp_noHeader hv, execDisp_noHeader (s := s.withPayload q) hv⟩
  | true =>
    cases e : inputStatus s.pins.payload with
    | some st =>
      exact ⟨_, _, execDisp_unreadable hv e, execDisp_unreadable (s := s.withPayload q) hv (hin.trans e)⟩
    | none =>
      rw [execDisp_readable hv e, execDisp_readable (s := s.withPayload q) hv (hin.trans e)]
      exact routeById_alike hv e h

/-- An `FVAL` of a kind other than TEXT takes its field, and its predicates agree when the fields at `extra` do. -/
theorem fvalField_alike {sx : Bool} {off w reach : Nat} {extra : List ReadRequest} {pred pred' : Nat → FieldVerdict}
    (h : SameFields (fieldReads off w reach extra s) s.pins.payload q)
    (hpred : SameFields extra s.pins.payload q → pred' = pred) :
    RespondAlike s (s.withPayload q) (fvalField sx off w reach pred s)
      (fvalField sx off w reach pred' (s.withPayload q)) := by
  obtain ⟨hs, hf⟩ := h
  have hin : inputStatus q = inputStatus s.pins.payload := inputStatus_congr hs.2.1 hs.2.2
  have hU : usable q = usable s.pins.payload := usable_congr hs.1 hs.2.1
  have hbnd := inBounds_congr hs off w
  cases e : inputStatus s.pins.payload with
  | some st => exact ⟨_, _, fvalField_unreadable e, fvalField_unreadable (s := s.withPayload q) (hin.trans e)⟩
  | none =>
    by_cases hb : inBounds s.pins.payload off w
    · by_cases hr : reach ≠ 0 ∧ usable s.pins.payload < (reach : Int)
      · exact ⟨_, _, fvalField_flagOutOfBounds e hb hr,
          fvalField_flagOutOfBounds (s := s.withPayload q) (hin.trans e) (hbnd.mpr hb) (hU ▸ hr)⟩
      · rw [fieldReads, if_pos ⟨e, hb, hr⟩, List.forall_mem_cons] at hf
        obtain ⟨hfield, hextra⟩ := hf
        refine ⟨_, _, fvalField_ok e hb hr, ?_⟩
        rw [← hfield, ← hpred ⟨hs, hextra⟩]
        exact fvalField_ok (s := s.withPayload q) (hin.trans e) (hbnd.mpr hb) (hU ▸ hr)
    · exact ⟨_, _, fvalField_outOfBounds e hb, fvalField_outOfBounds (s := s.withPayload q) (hin.trans e) (mt hbnd.mp hb)⟩

theorem fvalChars_alike {off n : Nat} (h : SameFields (textReads off n s) s.pins.payload q) :
    RespondAlike s (s.withPayload q) (fvalChars off n s) (fvalChars off n (s.withPayload q)) := by
  obtain ⟨hs, hf⟩ := h
  have hin : inputStatus q = inputStatus s.pins.payload := inputStatus_congr hs.2.1 hs.2.2
  have hbnd := inBounds_congr hs off (6 * n)
  cases e : inputStatus s.pins.payload with
  | some st => exact ⟨_, _, fvalChars_unreadable e, fvalChars_unreadable (s := s.withPayload q) (hin.trans e)⟩
  | none =>
    by_cases hb : inBounds s.pins.payload off (6 * n)
    · have hpad : allPadding q s.cfg.padCode off n = allPadding s.pins.payload s.cfg.padCode off n := by
        rw [textReads, if_pos ⟨e, hb⟩, List.forall_mem_map] at hf
        rw [Bool.eq_iff_iff, allPadding_iff, allPadding_iff]
        exact forall₂_congr fun j hj => by rw [hf j (List.mem_range.mpr hj)]
      refine ⟨_, _, fvalChars_ok e hb, ?_⟩
      rw [← hpad]
      exact fvalChars_ok (s := s.withPayload q) (hin.trans e) (hbnd.mpr hb)
    · exact ⟨_, _, fvalChars_outOfBounds e hb, fvalChars_outOfBounds (s := s.withPayload q) (hin.trans e) (mt hbnd.mp hb)⟩

/-- A bit read as a field of one bit. -/
theorem pbit_eq_of_ubits_one {p : Payload} {k : Nat} (h : ubits q k 1 = ubits p k 1) : pbit q k = pbit p k :=
  pbit_of_ubits_eq h k (Nat.le_refl k) (Nat.lt_succ_self k)

/-- A command takes from the payload no more than its shape and the fields it reads (20_memory.md R46). -/
theorem exec_alike {i : Instr} (h : SameFields (instrReads i s) s.pins.payload q) :
    RespondAlike s (s.withPayload q) (exec i s) (exec i (s.withPayload q)) := by
  cases i with
  | nop => exact ⟨_, _, rfl, rfl⟩
  | hdr => exact execHdr_alike h
  | disp => exact execDisp_alike h
  | fvalNone => exact fvalField_alike (pred := fun _ => predNone) h fun _ => rfl
  | fvalAllOnes | fvalEq | fvalGe | fvalGt | fvalSabs | fvalSpecial => exact fvalField_alike h fun _ => rfl
  | fvalFlag sx off wm1 foff pol =>
    refine fvalField_alike (pred := fun _ => predFlag (pbit s.pins.payload (offsetOf foff)) pol)
      (pred' := fun _ => predFlag (pbit q (offsetOf foff)) pol) h fun hx => ?_
    have hbit : pbit q (offsetOf foff) = pbit s.pins.payload (offsetOf foff) :=
      pbit_eq_of_ubits_one (hx.2 ⟨offsetOf foff, 1⟩ (List.mem_singleton_self _))
    rw [hbit]
  | fvalText => exact fvalChars_alike h

end

/-- Settles O60: by the kind of edge; the answers are the fields that the accepted command reads. -/
theorem edgeTakesPayloadThroughPbData : Obligations.EdgeTakesPayloadThroughPbData := by
  intro s t q hs hpb h
  rcases step_cases s with ⟨hr, he⟩ | ⟨i, hr, hv, hd, he⟩ | ⟨hr, hv, hd, he⟩ | ⟨hr, hv, he⟩
  · obtain rfl := Host.Outcome.next.inj (he.symm.trans h)
    exact ⟨_, step_reset (s := s.withPayload q) hr, by simp⟩
  · have hreads : SameFields (instrReads i s) s.pins.payload q := by
      rw [State.pbData, State.pbData, State.requests_command hr hv hd,
        State.requests_command (s := s.withPayload q) hr hv hd, instrReads_congr i s hs] at hpb
      exact sameFields_of_answers hs (fun r hr => (instrReads_bounded hr).2.1) hpb
    obtain ⟨st, f, hx, hy⟩ := exec_alike hreads
    rw [hx] at he
    obtain rfl := Host.Outcome.next.inj (he.symm.trans h)
    exact ⟨_, (step_command (s := s.withPayload q) hr hv hd).trans (congrArg advanced hy), by simp⟩
  · obtain rfl := Host.Outcome.next.inj (he.symm.trans h)
    exact ⟨_, step_illegal (s := s.withPayload q) hr hv hd, by simp⟩
  · obtain rfl := Host.Outcome.next.inj (he.symm.trans h)
    exact ⟨_, step_idle (s := s.withPayload q) hr hv, by simp⟩

end Sys2Proof.Machine
end

section
/-! The payload (20_memory.md): a field is the sum of its bits, a command that ends with INSUFFICIENT_BITS reads nothing (R48), and
no result depends on a bit outside the fields that are read. -/

namespace Sys2Proof.Machine

/-- Settles O23: by induction on the width, each further bit doubling the weight of the bits before it. -/
theorem ubitsIsBigEndianSum : Obligations.UbitsIsBigEndianSum := by
  refine fun p off w => ⟨?_, ubits_lt p off w⟩
  induction w with
  | zero => rfl
  | succ w ih =>
    have hdouble : ∀ i ∈ Finset.range w, 2 * ((pbit p (off + i)).toNat * 2 ^ (w - 1 - i)) =
        (pbit p (off + i)).toNat * 2 ^ (w + 1 - 1 - i) := fun i hi => by
      have hlt : i < w := Finset.mem_range.mp hi
      rw [show w + 1 - 1 - i = (w - 1 - i) + 1 by omega, Nat.pow_succ', Nat.mul_left_comm]
    rw [ubits_succ, ih, Finset.mul_sum, Finset.sum_congr rfl hdouble, Finset.sum_range_succ]
    simp

/-! ### A command that reads does not end with INSUFFICIENT_BITS -/

/-- The outcome `x` from `s` is the end of a command with a status other than INSUFFICIENT_BITS. -/
def EndsSufficient (s : State) (x : Host.Outcome State Fault Refusal) : Prop :=
  ∃ st f, st ≠ .insufficientBits ∧ x = respond st f s

theorem Status.eq_insufficientBits_of_code {st : Status} (h : st.code = 0x9) : st = .insufficientBits := by
  cases st with
  | insufficientBits => rfl
  | _ => exact absurd h (by decide)

theorem EndsSufficient.status_ne {s t : State} {x : Host.Outcome State Fault Refusal} (h : EndsSufficient s x)
    (hx : x = .next t) : t.regs.status ≠ 0x9 := by
  obtain ⟨st, f, hst, rfl⟩ := h
  obtain rfl := respond_inv hx
  exact mt Status.eq_insufficientBits_of_code hst

section
variable (s : State)

theorem hdrReads_nil_or_endsSufficient : hdrReads s = [] ∨ EndsSufficient s (execHdr s) := by
  by_cases hc : inputStatus s.pins.payload = none ∧ ¬ headerTooShort s.pins.payload
  · exact .inr ⟨.ok, _, by decide, execHdr_ok hc.1 hc.2⟩
  · exact .inl (if_neg hc)

theorem peekReads_nil_or_endsSufficient (base : Nat) (table : List SubType) (known common : Route) :
    peekReads base s = [] ∨ EndsSufficient s (peekRoute base table known common s) := by
  rcases peekRoute_cases base table known common s with ⟨hb, -⟩ | ⟨n, -, -, he⟩ | ⟨-, -, he⟩
  · exact .inl (if_neg hb)
  · exact .inr ⟨.ok, _, by decide, he⟩
  · exact .inr ⟨.unknownSubtype, _, by decide, he⟩

theorem dispReads_nil_or_endsSufficient : dispReads s = [] ∨ EndsSufficient s (execDisp s) := by
  by_cases hc : s.regs.hv = true ∧ inputStatus s.pins.payload = none
  · obtain ⟨hv, hin⟩ := hc
    rw [execDisp_readable hv hin]
    by_cases h6 : s.regs.msgId = 6
    · rw [dispReads_six hv hin h6, routeById_six h6]
      exact peekReads_nil_or_endsSufficient s _ _ _ _
    by_cases h8 : s.regs.msgId = 8
    · rw [dispReads_eight hv hin h8, routeById_eight h8]
      exact peekReads_nil_or_endsSufficient s _ _ _ _
    have n6 : s.regs.msgId.toNat ≠ 6 := fun e => h6 (BitVec.eq_of_toNat_eq e)
    have n8 : s.regs.msgId.toNat ≠ 8 := fun e => h8 (BitVec.eq_of_toNat_eq e)
    exact .inl (by rw [dispReads, if_pos ⟨hv, hin⟩, if_neg n6, if_neg n8])
  · exact .inl (if_neg hc)

theorem fieldReads_nil_or_endsSufficient (sx : Bool) (off w reach : Nat) (extra : List ReadRequest)
    (pred : Nat → FieldVerdict) :
    fieldReads off w reach extra s = [] ∨ EndsSufficient s (fvalField sx off w reach pred s) := by
  by_cases hc : inputStatus s.pins.payload = none ∧ inBounds s.pins.payload off w ∧
      ¬ (reach ≠ 0 ∧ usable s.pins.payload < (reach : Int))
  · exact .inr ⟨.ok, _, by decide, fvalField_ok hc.1 hc.2.1 hc.2.2⟩
  · exact .inl (if_neg hc)

theorem textReads_nil_or_endsSufficient (off n : Nat) :
    textReads off n s = [] ∨ EndsSufficient s (fvalChars off n s) := by
  by_cases hc : inputStatus s.pins.payload = none ∧ inBounds s.pins.payload off (6 * n)
  · exact .inr ⟨.ok, _, by decide, fvalChars_ok hc.1 hc.2⟩
  · exact .inl (if_neg hc)

/-- A command reads only after its bounds checks have passed (20_memory.md R48). -/
theorem instrReads_nil_or_endsSufficient (i : Instr) : instrReads i s = [] ∨ EndsSufficient s (exec i s) := by
  cases i with
  | nop => exact .inl rfl
  | hdr => exact hdrReads_nil_or_endsSufficient s
  | disp => exact dispReads_nil_or_endsSufficient s
  | fvalNone => exact fieldReads_nil_or_endsSufficient s _ _ _ _ _ fun _ => predNone
  | fvalAllOnes | fvalEq | fvalGe | fvalGt | fvalSabs | fvalSpecial =>
    exact fieldReads_nil_or_endsSufficient s _ _ _ _ _ _
  | fvalFlag _ _ _ foff pol =>
    exact fieldReads_nil_or_endsSufficient s _ _ _ _ _ fun _ => predFlag (pbit s.pins.payload (offsetOf foff)) pol
  | fvalText => exact textReads_nil_or_endsSufficient s _ _

end

/-- Settles O24: every read is bounded, and a command that reads ends with another status. -/
theorem readsStayInBounds : Obligations.ReadsStayInBounds := by
  constructor
  · intro i s r h
    have hb : r.Bounded s.pins.payload := instrReads_bounded h
    exact ⟨hb.1, hb.2.1, hb.2.2, hb.off_lt⟩
  · intro i s t h hst
    exact (instrReads_nil_or_endsSufficient s i).resolve_right fun hs => hs.status_ne h hst

/-! ### Bits that nothing depends on -/

/-- Payloads that agree on the bits of the reads have the same fields there. -/
theorem sameFields_of_agreeOn {reads : List ReadRequest} {p q : Payload} (h : agreeOn reads p q) : SameFields reads p q :=
  ⟨h.1, fun r hr => ubits_congr (h.2 r hr)⟩

/-- Settles O25: the command makes the same writes from both payloads, since the fields it reads are the same. -/
theorem commandsDependOnRequestedBitsOnly : Obligations.CommandsDependOnRequestedBitsOnly := by
  intro i s t q h ht
  obtain ⟨st, f, hs, hq⟩ := exec_alike (sameFields_of_agreeOn h)
  obtain rfl := respond_inv (hs.symm.trans ht)
  exact hq

/-- Every read of a cycle is bounded, whatever the pins of its edge. -/
theorem State.requests_bounded {s : State} {r : ReadRequest} (h : r ∈ s.requests) : r.Bounded s.pins.payload := by
  unfold State.requests at h
  split at h
  · cases h
  · split at h
    · split at h
      · exact instrReads_bounded h
      · cases h
    · cases h

/-- Which reads a cycle makes depends on no payload bit. -/
theorem State.requests_congr (s : State) {q : Payload} (h : sameShape s.pins.payload q) :
    (s.withPayload q).requests = s.requests := by
  simp [State.requests, instrReads_congr _ s h]

/-- Payloads that agree below U give the same `pb_data` answers (20_memory.md R48). -/
theorem State.pbData_congr {s : State} {q : Payload} (hs : sameShape s.pins.payload q)
    (h : ∀ k : Nat, (k : Int) < usable s.pins.payload → pbit q k = pbit s.pins.payload k) :
    (s.withPayload q).pbData = s.pbData := by
  rw [State.pbData, State.pbData, State.requests_congr s hs]
  refine List.map_congr_left fun r hr => congrArg (BitVec.ofNat 64) (ubits_congr fun k _ hk => h k ?_)
  obtain ⟨-, -, hb⟩ := State.requests_bounded hr
  simp only [inBounds] at hb
  omega

/-- Settles O26: the payload reaches the registers through `pb_data`, which holds no bit at or past U. -/
theorem bitsPastUsableNeverMatter : Obligations.BitsPastUsableNeverMatter :=
  fun s t q hs h => edgeTakesPayloadThroughPbData s t q hs (State.pbData_congr hs h)

end Sys2Proof.Machine
end

section
/-! The encoding (30_encoding.md): an encoded instruction decodes to itself, a decoded command's word and used K bits are the
instruction's own, and the opcode table, the command map, the grounds for an illegal command and the assembler's formula follow
from the fields of a word. -/

namespace Sys2Proof

open Machine

/-! ### Decoding and encoding -/

/-- Settles O1: a format F word's fields are the operands it is made of, and so are FLAG's fields of K. -/
theorem decodeOfEncodeIsIdentity : Obligations.DecodeOfEncodeIsIdentity := by
  intro i
  cases i with
  | nop | hdr | disp => rfl
  | fvalNone | fvalAllOnes | fvalEq | fvalGe | fvalGt | fvalSabs | fvalSpecial | fvalText => exact decode_wordF ..
  | fvalFlag sx off wm1 foff pol =>
    rw [encode, decode_wordF]
    change some (Instr.fvalFlag sx off wm1 (kFlagOffset (flagK foff pol)) (kFlagPolarity (flagK foff pol))) = _
    rw [kFlagOffset_flagK, kFlagPolarity_flagK]

/-- What a kind decodes to encodes to the format F word of that kind, and to the K bits the kind uses. -/
theorem encode_of_decodeFval {kind : BitVec 4} {sx : Bool} {off : BitVec 12} {wm1 : Six} {k : KOperand} {i : Instr}
    (h : decodeFval kind.toNat sx off wm1 k = some i) :
    (encode i).word = wordF kind sx off wm1 ∧ (encode i).k.toNat = k.toNat % 2 ^ usedKBits i := by
  have kind_eq {n : Nat} (hn : kind.toNat = n) : kind = BitVec.ofNat 4 n := by rw [← hn, BitVec.ofNat_toNat, BitVec.setWidth_eq]
  have whole : k.toNat = k.toNat % 2 ^ 64 := (Nat.mod_eq_of_lt k.isLt).symm
  have unused : 0 = k.toNat % 2 ^ 0 := (Nat.mod_one _).symm
  unfold decodeFval at h
  split at h
  case h_1 hn | h_2 hn | h_9 hn => obtain rfl := kind_eq hn; cases h; exact ⟨rfl, unused⟩
  case h_3 hn | h_4 hn | h_5 hn | h_6 hn | h_7 hn => obtain rfl := kind_eq hn; cases h; exact ⟨rfl, whole⟩
  case h_8 hn => obtain rfl := kind_eq hn; cases h; exact ⟨rfl, flagK_fields_toNat k⟩
  case h_10 => cases h

/-- Settles O2: by format, a word is put together again from its fields. -/
theorem encodeOfDecodeRestoresCommand : Obligations.EncodeOfDecodeRestoresCommand := by
  intro c i h
  rcases decode_cases h with ⟨hz, hi⟩ | ⟨ho, hr, hf⟩
  · have hw := wordZ_of_fields hz
    rcases hi with ⟨ho, rfl⟩ | ⟨ho, rfl⟩ | ⟨ho, rfl⟩ <;> rw [ho] at hw <;> exact ⟨hw, (Nat.mod_one _).symm⟩
  · rw [← wordF_of_fields ho hr]
    exact encode_of_decodeFval hf

/-! ### The K operand -/

/-- Whether a word is legal, and how many K bits its instruction uses, depends on the word alone (R70). -/
theorem decode_map_usedKBits (w : CommandWord) (k k' : KOperand) :
    (decode ⟨w, k⟩).map usedKBits = (decode ⟨w, k'⟩).map usedKBits := by
  have fval (n : Nat) (sx : Bool) (off : BitVec 12) (wm1 : Six) :
      (decodeFval n sx off wm1 k).map usedKBits = (decodeFval n sx off wm1 k').map usedKBits := by
    unfold decodeFval
    split <;> rfl
  simp only [decode]
  split
  case h_4 =>
    split
    · exact fval ..
    · rfl
  all_goals rfl

/-- Settles O6: the two commands decode to instructions that have the same encoding. -/
theorem unusedKBitsAreIgnored : Obligations.UnusedKBitsAreIgnored := by
  intro w k k'
  have hmap := decode_map_usedKBits w k k'
  constructor
  · intro i hi hk
    rw [hi] at hmap
    obtain ⟨j, hj, hu⟩ := Option.map_eq_some_iff.mp hmap.symm
    obtain ⟨hiw, hik⟩ := encodeOfDecodeRestoresCommand _ _ hi
    obtain ⟨hjw, hjk⟩ := encodeOfDecodeRestoresCommand _ _ hj
    have hword : (encode j).word = (encode i).word := hjw.trans hiw.symm
    have hkop : (encode j).k = (encode i).k := BitVec.eq_of_toNat_eq (by rw [hjk, hik, hu, hk])
    have henc : encode j = encode i := congrArg₂ Command.mk hword hkop
    rw [hj, ← decodeOfEncodeIsIdentity j, henc, decodeOfEncodeIsIdentity i]
  · intro hn
    rw [hn] at hmap
    exact Option.map_eq_none_iff.mp hmap.symm

/-! ### The opcode table -/

/-- Every instruction's word is of its own row. -/
theorem encodesInRow (i : Instr) : Laws.EncodesInRow.Statement i := by
  cases i with
  | nop => exact Laws.EncodesInRow.nop
  | hdr => exact Laws.EncodesInRow.hdr
  | disp => exact Laws.EncodesInRow.disp
  | fvalNone => exact Laws.EncodesInRow.fvalNone ..
  | fvalAllOnes => exact Laws.EncodesInRow.fvalAllOnes ..
  | fvalEq => exact Laws.EncodesInRow.fvalEq ..
  | fvalGe => exact Laws.EncodesInRow.fvalGe ..
  | fvalGt => exact Laws.EncodesInRow.fvalGt ..
  | fvalSabs => exact Laws.EncodesInRow.fvalSabs ..
  | fvalSpecial => exact Laws.EncodesInRow.fvalSpecial ..
  | fvalFlag => exact Laws.EncodesInRow.fvalFlag ..
  | fvalText => exact Laws.EncodesInRow.fvalText ..

/-- A decoded command is of the row of its mnemonic. -/
theorem exists_row_of_decode {c : Command} {i : Instr} (h : decode c = some i) :
    ∃ r ∈ opcodeTable, r.mnemonic = i.mnemonic ∧ c.word &&& r.mask = r.matchBits := by
  obtain ⟨r, hr, hm, hc⟩ := encodesInRow i
  rw [(encodeOfDecodeRestoresCommand c i h).1] at hc
  exact ⟨r, hr, hm, eq_of_beq hc⟩

/-- A word of the `FVAL` row of a kind decodes by that kind. -/
theorem decode_of_masked {c : Command} (kind : BitVec 4) (h : c.word &&& 0xFF7C0000 = wordF kind false 0 0) :
    decode c = decodeFval kind.toNat (sxField c.word) (offField c.word) (wm1Field c.word) c.k := by
  obtain ⟨ho, hk, hr⟩ := (masked_eq_iff c.word kind).mp h
  have hw := decode_wordF (kindField c.word) (sxField c.word) (offField c.word) (wm1Field c.word) c.k
  rwa [wordF_of_fields ho hr, hk] at hw

/-! The three words of format Z, whatever K is (R73). -/

theorem decode_nop (k : KOperand) : decode ⟨0x00000000, k⟩ = some .nop := by simp [decode, opField, zReserved]
theorem decode_hdr (k : KOperand) : decode ⟨0x10000000, k⟩ = some .hdr := by simp [decode, opField, zReserved]
theorem decode_disp (k : KOperand) : decode ⟨0x20000000, k⟩ = some .disp := by simp [decode, opField, zReserved]

/-- A word of a format Z row is the row's match. -/
theorem decode_of_masked_allOnes {c : Command} {v : CommandWord} (h : c.word &&& 0xFFFFFFFF = v) :
    decode c = decode ⟨v, c.k⟩ := by
  have hw : c.word = v := (BitVec.and_allOnes (x := c.word)).symm.trans h
  rw [← hw]

/-- A command of a row decodes to that row's instruction. -/
theorem decode_of_row {c : Command} {r : OpcodeRow} (hr : r ∈ opcodeTable) (h : c.word &&& r.mask = r.matchBits) :
    ∃ i, decode c = some i ∧ i.mnemonic = r.mnemonic := by
  simp only [opcodeTable, List.mem_cons, List.not_mem_nil, or_false] at hr
  rcases hr with rfl | rfl | rfl | rfl | rfl | rfl | rfl | rfl | rfl | rfl | rfl | rfl
  · exact ⟨_, (decode_of_masked_allOnes h).trans (decode_nop _), rfl⟩
  · exact ⟨_, (decode_of_masked_allOnes h).trans (decode_hdr _), rfl⟩
  · exact ⟨_, (decode_of_masked_allOnes h).trans (decode_disp _), rfl⟩
  · exact ⟨_, decode_of_masked 0 h, rfl⟩
  · exact ⟨_, decode_of_masked 1 h, rfl⟩
  · exact ⟨_, decode_of_masked 2 h, rfl⟩
  · exact ⟨_, decode_of_masked 3 h, rfl⟩
  · exact ⟨_, decode_of_masked 4 h, rfl⟩
  · exact ⟨_, decode_of_masked 5 h, rfl⟩
  · exact ⟨_, decode_of_masked 6 h, rfl⟩
  · exact ⟨_, decode_of_masked 7 h, rfl⟩
  · exact ⟨_, decode_of_masked 8 h, rfl⟩

/-- Settles O3: a decoded command's word is its instruction's, which is of the instruction's row, and row by row the other way. -/
theorem decodeFollowsOpcodeTable : Obligations.DecodeFollowsOpcodeTable := by
  intro c
  refine ⟨fun i => exists_row_of_decode, fun r => decode_of_row, fun hno => ?_⟩
  refine Option.eq_none_iff_forall_ne_some.mpr fun i hi => ?_
  obtain ⟨r, hr, -, hc⟩ := exists_row_of_decode hi
  exact hno r hr hc

/-! ### The command map -/

/-- The word of R73's formula is the encoder's. -/
theorem fvalWordOf_eq_wordF (kind : BitVec 4) (sx : Bool) (off : BitVec 12) (wm1 : Six) :
    fvalWordOf kind sx off wm1 = wordF kind sx off wm1 := by
  refine BitVec.eq_of_getLsbD_eq fun i hi => ?_
  simp only [fvalWordOf, wordF, BitVec.getLsbD_or, BitVec.getLsbD_shiftLeft, BitVec.getLsbD_setWidth,
    BitVec.getLsbD_append, BitVec.getLsbD_ofBool]
  interval_cases i <;> simp

/-- The reserved kinds are 0x9 to 0xF (R63). -/
theorem decodeFval_eq_none_iff {n : Nat} {sx : Bool} {off : BitVec 12} {wm1 : Six} {k : KOperand} :
    decodeFval n sx off wm1 k = none ↔ 9 ≤ n := by
  match n with
  | 0 | 1 | 2 | 3 | 4 | 5 | 6 | 7 | 8 => simp [decodeFval]
  | n + 9 => simp [decodeFval]

/-- Settles O4: by the fields of the format F word that the formula gives, and of any word that decodes. -/
theorem commandMapIsComplete : Obligations.CommandMapIsComplete := by
  refine ⟨decode_nop, decode_hdr, decode_disp, fun k sx off wm1 => ?_, fun c h0 h1 h2 hF => ?_, fun kind w => ?_, rfl⟩
  · simp only [fvalWordOf_eq_wordF, decode_wordF]
    exact ⟨rfl, rfl, rfl, rfl, rfl, rfl, rfl, rfl, rfl⟩
  · refine Option.eq_none_iff_forall_ne_some.mpr fun i hi => ?_
    rcases decode_cases hi with ⟨hz, hi⟩ | ⟨ho, hr, hf⟩
    · have hw := wordZ_of_fields hz
      rcases hi with ⟨ho, -⟩ | ⟨ho, -⟩ | ⟨ho, -⟩ <;> rw [ho] at hw
      · exact h0 hw.symm
      · exact h1 hw.symm
      · exact h2 hw.symm
    · have hk : (kindField c.word).toNat ≤ 8 := by
        by_contra hk
        rw [decodeFval_eq_none_iff.mpr (by omega)] at hf
        cases hf
      exact hF _ _ _ _ hk ((wordF_of_fields ho hr).symm.trans (fvalWordOf_eq_wordF ..).symm)
  · simp only [fvalWordOf_eq_wordF]
    rw [masked_eq_iff]
    constructor
    · rintro ⟨ho, rfl, hr⟩
      exact ⟨_, _, _, (wordF_of_fields ho hr).symm⟩
    · rintro ⟨sx, off, wm1, rfl⟩
      exact ⟨opField_wordF .., kindField_wordF .., fReserved_wordF ..⟩

/-! ### Illegal commands -/

theorem opField_toNat (w : CommandWord) : (opField w).toNat = w.toNat / 2 ^ 28 := by
  rw [opField, toNat_field]
  have := w.isLt
  omega

/-- A field is zero when its number is. -/
theorem field_eq_zero_iff {n : Nat} (w : BitVec n) (lo len : Nat) :
    w.extractLsb' lo len = 0 ↔ w.toNat / 2 ^ lo % 2 ^ len = 0 := by
  rw [← toNat_field, ← BitVec.toNat_inj]
  simp

/-- The grounds of R69 by the fields of the word. -/
theorem decode_eq_none_iff (c : Command) : decode c = none ↔
    4 ≤ (opField c.word).toNat ∨
    ((opField c.word).toNat = 3 ∧ 9 ≤ (kindField c.word).toNat) ∨
    ((opField c.word).toNat ≤ 2 ∧ zReserved c.word ≠ 0) ∨
    ((opField c.word).toNat = 3 ∧ fReserved c.word ≠ 0) := by
  unfold decode
  split
  case h_1 h | h_2 h | h_3 h => simp [h]
  case h_4 h =>
    split
    · next hr => simp [h, hr, decodeFval_eq_none_iff]
    · next hr => exact iff_of_true rfl (.inr (.inr (.inr ⟨h, hr⟩)))
  case h_5 h0 h1 h2 h3 =>
    simp only [imp_false] at h0 h1 h2 h3
    have h4 : 4 ≤ (opField c.word).toNat := by omega
    simp [h4]

/-- Settles O5: the grounds by fields, and the edge that accepts an illegal command. -/
theorem illegalCommandsAreTheReservedOnes : Obligations.IllegalCommandsAreTheReservedOnes := by
  refine ⟨fun c => ?_, fun s hrst hvalid hd => ⟨_, step_illegal hrst hvalid hd, State.advance_regs _⟩⟩
  have hz : zReserved c.word = 0 ↔ c.word.toNat % 2 ^ 28 = 0 :=
    (field_eq_zero_iff c.word 0 28).trans (by simp)
  have hf : fReserved c.word = 0 ↔ c.word.toNat / 2 ^ 18 % 32 = 0 := field_eq_zero_iff c.word 18 5
  have hk : (kindField c.word).toNat = c.word.toNat / 2 ^ 24 % 16 := toNat_field c.word 24 4
  rw [decode_eq_none_iff, opField_toNat, hk, ne_eq, ne_eq, hz, hf]

/-! ### The assembler -/

section
variable {off w : Nat} {k : Option Nat}

theorem toNat_of_offsetInRange (h : offsetInRange off = true) : (BitVec.ofNat 12 off).toNat = off := by
  rw [offsetInRange, decide_eq_true_eq] at h
  exact Nat.mod_eq_of_lt h

theorem toNat_of_widthInRange (h : widthInRange w = true) : (BitVec.ofNat 6 (w - 1)).toNat = w - 1 := by
  simp only [widthInRange, Bool.and_eq_true, decide_eq_true_eq] at h
  exact Nat.mod_eq_of_lt (by omega)

theorem toNat_of_kInRange (h : kInRange k = true) : (BitVec.ofNat 64 (k.getD 0)).toNat = k.getD 0 := by
  rw [kInRange, decide_eq_true_eq] at h
  exact Nat.mod_eq_of_lt h

/-- The encoder's word of operands in range is the formula's number (R71). -/
theorem wordF_toNat_of_inRange (kind : BitVec 4) (sx : Bool) (hoff : offsetInRange off = true) (hw : widthInRange w = true) :
    (wordF kind sx (BitVec.ofNat 12 off) (BitVec.ofNat 6 (w - 1))).toNat =
      3 * 2 ^ 28 + kind.toNat * 2 ^ 24 + sx.toNat * 2 ^ 23 + off * 2 ^ 6 + (w - 1) := by
  rw [wordF_toNat, toNat_of_offsetInRange hoff, toNat_of_widthInRange hw]

end

/-- A line in range that is no pseudo-command assembles to its one command. -/
theorem assemble_of_command {l : AsmLine} {c : Command} (hl : l.wf = true) (he : l.expand = [l]) (hc : l.command = some c) :
    l.assemble = some [c] := by
  rw [AsmLine.assemble, if_pos hl, he, List.mapM_cons, hc]
  rfl

/-- Settles O8: by line form; operands in range are not cut to the widths of their fields. -/
theorem assemblerFollowsEncodingFormula : Obligations.AssemblerFollowsEncodingFormula := by
  refine ⟨fun l hl => if_neg (by simp [hl]), fun kind signed off w k hl => ?_, fun signed off w foff pol hl => ?_,
    fun off n hl => ?_, fun cw k hl => ?_⟩
  · refine ⟨_, assemble_of_command hl rfl rfl, ?_⟩
    simp only [AsmLine.wf, Bool.and_eq_true] at hl
    obtain ⟨⟨⟨hoff, hw⟩, hk⟩, -⟩ := hl
    exact ⟨toNat_of_kInRange hk, wordF_toNat_of_inRange _ _ hoff hw⟩
  · refine ⟨_, assemble_of_command hl rfl rfl, ?_⟩
    simp only [AsmLine.wf, Bool.and_eq_true, decide_eq_true_eq] at hl
    obtain ⟨⟨⟨hoff, hw⟩, hfoff⟩, hpol⟩ := hl
    have hp : (pol == 1).toNat = pol := by interval_cases pol <;> rfl
    refine ⟨?_, wordF_toNat_of_inRange _ _ hoff hw⟩
    rw [flagK_toNat, toNat_of_offsetInRange hfoff, hp, Nat.add_comm]
  · refine ⟨_, assemble_of_command hl rfl rfl, rfl, ?_⟩
    simp only [AsmLine.wf, Bool.and_eq_true] at hl
    obtain ⟨hoff, hn⟩ := hl
    exact wordF_toNat_of_inRange 8 false hoff hn
  · refine ⟨_, assemble_of_command hl rfl rfl, ?_⟩
    simp only [AsmLine.wf, Bool.and_eq_true, decide_eq_true_eq] at hl
    obtain ⟨hcw, hk⟩ := hl
    exact ⟨Nat.mod_eq_of_lt hcw, toNat_of_kInRange hk⟩

/-- Lines with the same check and the same expansion assemble alike. -/
theorem assemble_congr {l l' : AsmLine} (hwf : l.wf = l'.wf) (he : l.expand = l'.expand) : l.assemble = l'.assemble := by
  rw [AsmLine.assemble, AsmLine.assemble, hwf, he]

/-- NONE and ALLONES without `k` are checked as their pseudo-commands are. -/
theorem wf_fval_of_no_k {kind : FieldKind} (hk : kind.kAllowed none = true) (signed : Bool) (off w : Nat) :
    (offsetInRange off && widthInRange w) = (AsmLine.fval kind signed off w none).wf := by
  simp [AsmLine.wf, kInRange, hk]

/-- Settles O9: a pseudo-command is checked and expanded as the line it stands for. -/
theorem pseudoCommandsExpand : Obligations.PseudoCommandsExpand :=
  ⟨rfl, fun off w =>
    ⟨assemble_congr (wf_fval_of_no_k rfl false off w) rfl, assemble_congr (wf_fval_of_no_k rfl false off w) rfl,
      assemble_congr (wf_fval_of_no_k rfl true off w) rfl⟩⟩

end Sys2Proof
end

section
/-! The `sx` bit (30_encoding.md R64): it chooses how FVALUE shows a field that is not missing, and never the verdict. -/

namespace Sys2Proof.Machine

/-- Two field commands that differ in `sx` write the same verdict. -/
def SameVerdict (s : State) (x y : Host.Outcome State Fault Refusal) : Prop :=
  ∃ st v v' m sp, x = respond st (Regs.writeField v m sp) s ∧ y = respond st (Regs.writeField v' m sp) s

/-- `sx` only chooses how a field that is not missing is shown (R64). -/
theorem fvalField_sameVerdict (sx b : Bool) (off w reach : Nat) (pred : Nat → FieldVerdict) (s : State) :
    SameVerdict s (fvalField sx off w reach pred s) (fvalField b off w reach pred s) := by
  cases h : inputStatus s.pins.payload with
  | some st => exact ⟨st, 0, 0, false, false, fvalField_unreadable h, fvalField_unreadable h⟩
  | none =>
    by_cases hb : inBounds s.pins.payload off w
    · by_cases hr : reach ≠ 0 ∧ usable s.pins.payload < (reach : Int)
      · exact ⟨_, 0, 0, false, false, fvalField_flagOutOfBounds h hb hr, fvalField_flagOutOfBounds h hb hr⟩
      · exact ⟨.ok, _, _, _, _, fvalField_ok h hb hr, fvalField_ok h hb hr⟩
    · exact ⟨_, 0, 0, false, false, fvalField_outOfBounds h hb, fvalField_outOfBounds h hb⟩

/-- With another `sx` bit a command does the same, or it is no `FVAL.TEXT` and its verdict is the same. -/
theorem exec_withSx (b : Bool) (i : Instr) (s : State) :
    exec (withSx b i) s = exec i s ∨ (i.mnemonic ≠ "FVAL.TEXT" ∧ SameVerdict s (exec i s) (exec (withSx b i) s)) := by
  cases i with
  | nop | hdr | disp | fvalText => exact .inl rfl
  | fvalNone => exact .inr ⟨by simp [Instr.mnemonic], fvalField_sameVerdict (pred := fun _ => predNone) ..⟩
  | fvalAllOnes | fvalEq | fvalGe | fvalGt | fvalSabs | fvalSpecial =>
    exact .inr ⟨by simp [Instr.mnemonic], fvalField_sameVerdict ..⟩
  | fvalFlag sx off wm1 foff pol =>
    exact .inr ⟨by simp [Instr.mnemonic],
      fvalField_sameVerdict (pred := fun _ => predFlag (pbit s.pins.payload (offsetOf foff)) pol) ..⟩

/-- Settles O57: by command, through the verdict that both make. -/
theorem sxNeverChangesVerdict : Obligations.SxNeverChangesVerdict := by
  intro b i s t h
  rcases exec_withSx b i s with he | ⟨hm, st, v, v', m, sp, he, he'⟩
  · exact ⟨t, he.trans h, rfl, rfl, rfl, fun _ => rfl⟩
  · obtain rfl := respond_inv (he.symm.trans h)
    exact ⟨_, he', rfl, rfl, rfl, fun ht => absurd ht hm⟩

end Sys2Proof.Machine
end

section
/-! `HDR` (40_header.md): it latches the header exactly when the payload holds one, and makes the failure writes otherwise. -/

namespace Sys2Proof.Machine

/-- A header can be latched: readable inputs, at least 7 characters and at least 38 usable bits (R80). -/
abbrev Payload.HoldsHeader (p : Payload) : Prop := readable p ∧ 7 ≤ p.charCount ∧ 38 ≤ usable p

theorem Payload.holdsHeader_iff (p : Payload) : p.HoldsHeader ↔ inputStatus p = none ∧ ¬ headerTooShort p := by
  rw [inputStatus_none_iff, not_or, Nat.not_lt, Int.not_lt]

/-- Whether a header can be latched depends on no payload bit. -/
theorem Payload.holdsHeader_congr {p q : Payload} (h : sameShape p q) : q.HoldsHeader ↔ p.HoldsHeader := by
  obtain ⟨hc, hp, ha⟩ := h
  simp only [HoldsHeader, readable, usable_congr hc hp, hc, hp, ha]

/-- The status that a failing `HDR` ends with: the first check that fails, the length check being the last (R133). -/
def Payload.headerFailure (p : Payload) : Status := (inputStatus p).getD .insufficientBits

theorem Payload.headerFailure_code (p : Payload) :
    p.headerFailure.code = if 5 < p.padBits.toNat then 0xB else if p.armorErr = true then 0xA else 0x9 := by
  unfold headerFailure inputStatus
  split
  · rfl
  · split <;> rfl

theorem Payload.headerFailure_congr {p q : Payload} (h : sameShape p q) : q.headerFailure = p.headerFailure := by
  obtain ⟨-, hp, ha⟩ := h
  rw [headerFailure, headerFailure, inputStatus_congr hp ha]

theorem Payload.headerFailure_of_readable {p : Payload} (h : readable p) : p.headerFailure = .insufficientBits := by
  rw [headerFailure, (inputStatus_none_iff p).mpr h, Option.getD_none]

section
variable {s : State}

theorem execHdr_of_holdsHeader (h : s.pins.payload.HoldsHeader) :
    execHdr s = respond .ok (latchHeader s.pins.payload) s :=
  have ⟨hin, hl⟩ := s.pins.payload.holdsHeader_iff.mp h
  execHdr_ok hin hl

theorem execHdr_of_not_holdsHeader (h : ¬ s.pins.payload.HoldsHeader) :
    execHdr s = respond s.pins.payload.headerFailure Regs.clearHeader s := by
  rw [Payload.holdsHeader_iff, not_and, not_not] at h
  unfold Payload.headerFailure
  cases hin : inputStatus s.pins.payload with
  | some st => exact execHdr_unreadable hin
  | none => exact execHdr_short hin (h hin)

/-- A payload of `n` well-formed characters and a pad count of `k` ends `HDR` with INSUFFICIENT_BITS and no valid header when fewer
than 38 bits are left (R80, R81). -/
theorem execHdr_tooFewBits {n : Nat} {k : BitVec 3} (hk : k.toNat ≤ 5) (hlt : (n : Int) * 6 - (k.toNat : Int) < 38)
    (ha : s.pins.payload.armorErr = false) (hc : s.pins.payload.charCount = n) (hp : s.pins.payload.padBits = k) :
    usable s.pins.payload = (n : Int) * 6 - (k.toNat : Int) ∧
      ∃ t, exec .hdr s = .next t ∧ t.regs.status = 0x9 ∧ t.regs.hv = false := by
  have hU : usable s.pins.payload = (n : Int) * 6 - (k.toNat : Int) := by rw [usable, hc, hp]
  have hno : ¬ s.pins.payload.HoldsHeader := fun ⟨_, _, h38⟩ => by omega
  have he := execHdr_of_not_holdsHeader hno
  rw [Payload.headerFailure_of_readable ⟨hp ▸ hk, ha⟩] at he
  exact ⟨hU, _, he, rfl, rfl⟩

end

section
variable (p : Payload) (r : Regs)

/-! The header registers are as wide as the header's fields, so `HDR` latches all of each field (R80). -/

theorem latchHeader_msgId_toNat : (latchHeader p r).msgId.toNat = ubits p 0 6 := Nat.mod_eq_of_lt (ubits_lt p 0 6)
theorem latchHeader_repeatInd_toNat : (latchHeader p r).repeatInd.toNat = ubits p 6 2 := Nat.mod_eq_of_lt (ubits_lt p 6 2)
theorem latchHeader_mmsi_toNat : (latchHeader p r).mmsi.toNat = ubits p 8 30 := Nat.mod_eq_of_lt (ubits_lt p 8 30)

end

/-- Settles O32: by whether the payload holds a header. -/
theorem hdrLatchesHeaderOrFails : Obligations.HdrLatchesHeaderOrFails := by
  refine ⟨decode_hdr, fun s => ⟨fun hr hc hU => ?_, fun hno => ?_⟩⟩
  · exact ⟨_, execHdr_of_holdsHeader ⟨hr, hc, hU⟩, rfl, rfl, rfl, rfl, rfl, rfl, latchHeader_msgId_toNat _ s.regs,
      latchHeader_repeatInd_toNat _ s.regs, latchHeader_mmsi_toNat _ s.regs, ⟨rfl, rfl, rfl, rfl, rfl⟩, ⟨rfl, rfl, rfl⟩⟩
  · rw [← Payload.headerFailure_code]
    exact execHdr_of_not_holdsHeader hno

/-- Settles O33: each edge by its number of usable bits. -/
theorem hdrLengthEdges : Obligations.HdrLengthEdges := by
  intro s ha
  have hU : usable s.pins.payload = (s.pins.payload.charCount : Int) * 6 - (s.pins.payload.padBits.toNat : Int) := rfl
  refine ⟨fun _ h38 => by omega, fun hc hp => ?_, execHdr_tooFewBits (by decide) (by decide) ha,
    execHdr_tooFewBits (by decide) (by decide) ha, execHdr_tooFewBits (by decide) (by decide) ha⟩
  have h38 : 38 ≤ usable s.pins.payload := by omega
  exact ⟨by omega, h38, _, execHdr_of_holdsHeader ⟨⟨by omega, ha⟩, hc.ge, h38⟩, rfl, rfl⟩

/-- Settles O34: whatever its status and header, `HDR` clears the dispatch registers and writes no field register. -/
theorem hdrInvalidatesVerdict : Obligations.HdrInvalidatesVerdict := by
  intro s
  obtain ⟨st, hv, id, rep, m, he, -, -⟩ := execHdr_result s
  exact ⟨_, he, rfl, rfl, rfl, rfl, rfl, rfl, rfl, rfl⟩

/-- Settles O35: both payloads hold a header, or both fail at the same check. -/
theorem hdrAcceptsAnyHeaderContents : Obligations.HdrAcceptsAnyHeaderContents := by
  intro s t u q hs ht hu
  by_cases h : s.pins.payload.HoldsHeader
  · have hq := (Payload.holdsHeader_congr hs).mpr h
    obtain rfl := respond_inv ((execHdr_of_holdsHeader h).symm.trans ht)
    obtain rfl := respond_inv ((execHdr_of_holdsHeader (s := s.withPayload q) hq).symm.trans hu)
    exact ⟨rfl, rfl⟩
  · have hq := mt (Payload.holdsHeader_congr hs).mp h
    obtain rfl := respond_inv ((execHdr_of_not_holdsHeader h).symm.trans ht)
    obtain rfl := respond_inv ((execHdr_of_not_holdsHeader (s := s.withPayload q) hq).symm.trans hu)
    exact ⟨congrArg Status.code (Payload.headerFailure_congr hs), rfl⟩

end Sys2Proof.Machine
end

section
/-! `DISP` (41_dispatch.md): every message id is of one class, each class has its verdict, and the classes' verdicts give the
statements on routes, sub-types and reads. -/

namespace Sys2Proof.Machine

/-! ### The classes of message ids -/

/-- The model's route table gives an id of R86's rows the row's code. -/
theorem routeTable_of_mem_routedIds {id : Nat} {code : Six} (h : (id, code) ∈ routedIds) :
    ∃ ro, routeTable id = some ro ∧ ro.code = code := by
  have rows : ∀ row ∈ routedIds, (routeTable row.1).map Route.code = some row.2 := by decide
  exact Option.map_eq_some_iff.mp (rows (id, code) h)

/-- An id is peeked, unsupported, routed or unknown (R86). -/
theorem messageId_class (id : Six) :
    id = 6 ∨ id = 8 ∨ (id = 15 ∨ id = 19) ∨ (∃ ro, routeTable id.toNat = some ro) ∨ unknownId id.toNat := by
  by_cases h6 : id = 6
  · exact .inl h6
  by_cases h8 : id = 8
  · exact .inr (.inl h8)
  by_cases hun : id = 15 ∨ id = 19
  · exact .inr (.inr (.inl hun))
  obtain ⟨h15, h19⟩ := not_or.mp hun
  cases hro : routeTable id.toNat with
  | some ro => exact .inr (.inr (.inr (.inl ⟨ro, rfl⟩)))
  | none => exact .inr (.inr (.inr (.inr (unknownId_of_routeTable_none h6 h8 h15 h19 hro))))

/-- An unknown id is of no other class. -/
theorem unknownId_excludes {id : Six} (h : unknownId id.toNat) :
    (id ≠ 6 ∧ id ≠ 8 ∧ id ≠ 15 ∧ id ≠ 19) ∧ routeTable id.toNat = none := by
  revert id; decide

section
variable {s : State}

theorem routeById_routed {ro : Route} (h : routeTable s.regs.msgId.toNat = some ro) :
    routeById s = respond .ok (Regs.writeDispatch true ro 0 0 0) s := by
  have ne {id : Six} (hid : routeTable id.toNat = none) : s.regs.msgId ≠ id := by
    rintro rfl
    cases hid.symm.trans h
  simpa [h] using routeById_other (ne rfl) (ne rfl) (ne rfl) (ne rfl)

theorem routeById_unknown (h : unknownId s.regs.msgId.toNat) :
    routeById s = respond .unknownType (Regs.writeDispatch true .unknown 0 0 0) s := by
  obtain ⟨⟨h6, h8, h15, h19⟩, hro⟩ := unknownId_excludes h
  simpa [hro] using routeById_other h6 h8 h15 h19

/-! ### The DAC/FI peek -/

/-- The peeked pair is the one that the payload holds (R87). -/
theorem peek_eq_of_peeks {p : Payload} {base : Nat} {e : SubType} (h : peeks p base e) : peek p base = e := by
  rw [peek, h.1, h.2, BitVec.ofNat_toNat, BitVec.ofNat_toNat, BitVec.setWidth_eq, BitVec.setWidth_eq]

/-- The index of the first entry that equals the pair is the one found (R89). -/
theorem subIndex_eq_some {table : List SubType} {e : SubType} {n : Nat} (hn : table[n]? = some e)
    (hfirst : ∀ m, m < n → table[m]? ≠ some e) : subIndex table e = some n := by
  cases h : subIndex table e with
  | none => exact absurd (List.mem_of_getElem? hn) (subIndex_none_iff.mp h)
  | some k =>
    obtain ⟨hk, hlt⟩ := subIndex_some h
    have h1 : ¬ k < n := fun hkn => hfirst k hkn hk
    have h2 : ¬ n < k := fun hnk => hlt n hnk hn
    rw [show k = n by omega]

section
variable {base n : Nat} {table : List SubType} {known common : Route} {e : SubType}

theorem peekRoute_of_first_entry (hb : inBounds s.pins.payload base 16) (hp : peeks s.pins.payload base e)
    (hn : table[n]? = some e) (hfirst : ∀ m, m < n → table[m]? ≠ some e) :
    peekRoute base table known common s =
      respond .ok (Regs.writeDispatch true known (BitVec.ofNat 6 n) e.1 e.2) s := by
  obtain rfl := peek_eq_of_peeks hp
  exact peekRoute_known hb (subIndex_eq_some hn hfirst)

theorem peekRoute_of_no_entry (hb : inBounds s.pins.payload base 16) (hp : peeks s.pins.payload base e) (he : e ∉ table) :
    peekRoute base table known common s = respond .unknownSubtype (Regs.writeDispatch true common 0 e.1 e.2) s := by
  obtain rfl := peek_eq_of_peeks hp
  exact peekRoute_unknown hb he

/-- A peek in bounds gives the common or the sub-type's route. -/
theorem peekRoute_route (hb : inBounds s.pins.payload base 16) :
    ∃ t, peekRoute base table known common s = .next t ∧ (t.regs.route = common.code ∨ t.regs.route = known.code) := by
  rcases peekRoute_cases base table known common s with ⟨hno, -⟩ | ⟨n, -, -, he⟩ | ⟨-, -, he⟩
  · exact absurd hb hno
  · exact ⟨_, he, .inr rfl⟩
  · exact ⟨_, he, .inl rfl⟩

end

/-! ### `DISP` by class, with a header and readable inputs -/

theorem execDisp_routeById (hv : s.regs.hv = true) (hr : readable s.pins.payload) : exec .disp s = routeById s :=
  execDisp_readable hv ((inputStatus_none_iff _).mpr hr)

theorem execDisp_six (hv : s.regs.hv = true) (hr : readable s.pins.payload) (h6 : s.regs.msgId = 6) :
    exec .disp s = peekRoute s.cfg.dacfiOff6 s.cfg.sub6 .bin6Sub .bin6Common s :=
  (execDisp_routeById hv hr).trans (routeById_six h6)

theorem execDisp_eight (hv : s.regs.hv = true) (hr : readable s.pins.payload) (h8 : s.regs.msgId = 8) :
    exec .disp s = peekRoute s.cfg.dacfiOff8 s.cfg.sub8 .bin8Sub .bin8Common s :=
  (execDisp_routeById hv hr).trans (routeById_eight h8)

end

/-- Settles O36: the header check is the first. -/
theorem dispWithoutHeader : Obligations.DispWithoutHeader :=
  fun s q hv => execDisp_noHeader (s := s.withPayload q) hv

/-- Settles O38: the id's row of R86 is the model's route for it. -/
theorem dispRoutesCatalogIds : Obligations.DispRoutesCatalogIds := by
  refine ⟨decode_disp, fun s code hv hr hid => ?_⟩
  obtain ⟨ro, hro, rfl⟩ := routeTable_of_mem_routedIds hid
  exact (execDisp_routeById hv hr).trans (routeById_routed hro)

/-- Settles O39: by the multiplexer's branch for the unsupported ids. -/
theorem dispUnsupportedIds : Obligations.DispUnsupportedIds :=
  fun _ hv hr hid => (execDisp_routeById hv hr).trans (routeById_unsupported hid)

/-- Settles O40: by the multiplexer's branch for the ids without a route. -/
theorem dispUnknownIds : Obligations.DispUnknownIds :=
  fun _ hv hr hid => (execDisp_routeById hv hr).trans (routeById_unknown hid)

/-- Settles O41: the peek's field is out of bounds. -/
theorem dispPeekNeedsSixteenBits : Obligations.DispPeekNeedsSixteenBits := by
  rintro s hv hr (⟨h6, hU⟩ | ⟨h8, hU⟩)
  · exact (execDisp_six hv hr h6).trans (peekRoute_short (not_le.mpr hU))
  · exact (execDisp_eight hv hr h8).trans (peekRoute_short (not_le.mpr hU))

/-- Settles O42: the entry found is the first that equals the pair. -/
theorem dispKnownSubtypes : Obligations.DispKnownSubtypes := by
  refine fun s n e hv hr _ => ⟨fun h6 hU hp hn hfirst => ?_, fun h8 hU hp hn hfirst => ?_⟩
  · exact (execDisp_six hv hr h6).trans (peekRoute_of_first_entry hU hp hn hfirst)
  · exact (execDisp_eight hv hr h8).trans (peekRoute_of_first_entry hU hp hn hfirst)

/-- Settles O43: no entry is found. -/
theorem dispUnknownSubtypes : Obligations.DispUnknownSubtypes := by
  refine fun s e hv hr => ⟨fun h6 hU hp he => ?_, fun h8 hU hp he => ?_⟩
  · exact (execDisp_six hv hr h6).trans (peekRoute_of_no_entry hU hp he)
  · exact (execDisp_eight hv hr h8).trans (peekRoute_of_no_entry hU hp he)

/-! ### Explicitly unsupported sub-types -/

/-- An admissible `SUB6` holds none of the explicitly unsupported sub-types (00_scope.md R6). -/
theorem not_mem_sub6_of_wf {c : Config} {e : SubType} (h : c.wf = true) (he : e = (1, 12) ∨ e = (1, 28) ∨ e = (1, 30)) :
    e ∉ c.sub6 := by
  simp only [Config.wf, sub6Admissible, Bool.and_eq_true] at h
  obtain ⟨⟨-, hall⟩, -⟩ := h
  simpa using List.all_eq_true.mp hall e (by simpa using he)

/-- An admissible `SUB8` holds none of the explicitly unsupported sub-types (00_scope.md R7). -/
theorem not_mem_sub8_of_wf {c : Config} {e : SubType} (h : c.wf = true) (he : e = (1, 21) ∨ e = (1, 40) ∨ e = (200, 23)) :
    e ∉ c.sub8 := by
  simp only [Config.wf, sub8Admissible, Bool.and_eq_true] at h
  obtain ⟨-, -, hall⟩ := h
  simpa using List.all_eq_true.mp hall e (by simpa using he)

/-- Settles O44: they are in no admissible table, so O43's verdict is theirs. -/
theorem dispExplicitlyUnsupportedSubtypes : Obligations.DispExplicitlyUnsupportedSubtypes := by
  intro s e hwf hv hr
  obtain ⟨six, eight⟩ := dispUnknownSubtypes s e hv hr
  refine ⟨fun h6 hU hp he => ?_, fun h8 hU hp he => ?_⟩
  · have hno : e ∉ s.cfg.sub6 := not_mem_sub6_of_wf hwf he
    exact ⟨hno, six h6 hU hp hno⟩
  · have hno : e ∉ s.cfg.sub8 := not_mem_sub8_of_wf hwf he
    exact ⟨hno, eight h8 hU hp hno⟩

/-! ### The route table -/

/-- A code that the route of some id may have: not NONE and not a reserved one (R86). -/
abbrev UsedRoute (route : Six) : Prop := route ≠ 0x00 ∧ ¬ (0x19 ≤ route.toNat ∧ route.toNat ≤ 0x3E)

theorem usedRoute_of_mem_routedIds {id : Nat} {code : Six} (h : (id, code) ∈ routedIds) : UsedRoute code := by
  have rows : ∀ row ∈ routedIds, UsedRoute row.2 := by decide
  exact rows (id, code) h

/-- Settles O37: the one next state is that of the id's class. -/
theorem dispRouteTable : Obligations.DispRouteTable := by
  intro s hv hr hU6 hU8
  obtain ⟨st, dv, ro, n, d, f, he, -⟩ := execDisp_result s
  obtain ⟨t, ht⟩ : ∃ t, exec .disp s = .next t := ⟨_, he⟩
  have only {u : State} (hu : exec .disp s = .next u) : u = t := Host.Outcome.next.inj (hu.symm.trans ht)
  have routed (code : Six) (hid : (s.regs.msgId.toNat, code) ∈ routedIds) : t.regs.route = code := by
    rw [← only (dispRoutesCatalogIds.2 s code hv hr hid)]
  have six (hid : s.regs.msgId = 6) : t.regs.route = 0x04 ∨ t.regs.route = 0x05 := by
    obtain ⟨u, hu, hroute⟩ := peekRoute_route (hU6 hid)
    exact only ((execDisp_six hv hr hid).trans hu) ▸ hroute
  have eight (hid : s.regs.msgId = 8) : t.regs.route = 0x07 ∨ t.regs.route = 0x08 := by
    obtain ⟨u, hu, hroute⟩ := peekRoute_route (hU8 hid)
    exact only ((execDisp_eight hv hr hid).trans hu) ▸ hroute
  have unsupported (hid : s.regs.msgId = 15 ∨ s.regs.msgId = 19) : t.regs.route = 0x0D := by
    rw [← only (dispUnsupportedIds s hv hr hid)]
  have unknown (hid : unknownId s.regs.msgId.toNat) : t.regs.route = 0x3F := by
    rw [← only (dispUnknownIds s hv hr hid)]
  have used : UsedRoute t.regs.route := by
    rcases messageId_class s.regs.msgId with hid | hid | hid | ⟨ro, hro⟩ | hid
    · rcases six hid with h | h <;> rw [h] <;> decide
    · rcases eight hid with h | h <;> rw [h] <;> decide
    · rw [unsupported hid]; decide
    · have hrow := mem_routedIds_of_routeTable hro
      exact routed _ hrow ▸ usedRoute_of_mem_routedIds hrow
    · rw [unknown hid]; decide
  exact ⟨t, ht, used.1, used.2, routed, six, eight, unsupported, unknown⟩

/-! ### What `DISP` reads -/

/-- Settles O45: the verdict reads HV and MSG_ID only, which `DISP` does not write. -/
theorem dispIsRepeatable : Obligations.DispIsRepeatable := by
  intro s t h
  obtain ⟨st, dv, ro, n, d, f, hw⟩ := execDisp_writes s
  obtain rfl := respond_inv ((hw s.regs rfl rfl).symm.trans h)
  exact hw _ rfl rfl

section
variable {s : State}

/-- For the other ids `DISP` makes no payload request (R93). -/
theorem dispReads_of_not_peeked (h6 : s.regs.msgId ≠ 6) (h8 : s.regs.msgId ≠ 8) : dispReads s = [] := by
  have n6 : s.regs.msgId.toNat ≠ 6 := fun e => h6 (BitVec.eq_of_toNat_eq e)
  have n8 : s.regs.msgId.toNat ≠ 8 := fun e => h8 (BitVec.eq_of_toNat_eq e)
  rw [dispReads, if_neg n6, if_neg n8, ite_self]

/-- For the other ids the verdict is the same on every payload, and it is no bounds failure (R93). -/
theorem routeById_of_not_peeked (h6 : s.regs.msgId ≠ 6) (h8 : s.regs.msgId ≠ 8) :
    ∃ st f, st ≠ .insufficientBits ∧ ∀ q, routeById (s.withPayload q) = respond st f (s.withPayload q) := by
  rcases messageId_class s.regs.msgId with hid | hid | hid | ⟨ro, hro⟩ | hid
  · exact absurd hid h6
  · exact absurd hid h8
  · exact ⟨.unsupportedType, _, by decide, fun q => routeById_unsupported (s := s.withPayload q) hid⟩
  · exact ⟨.ok, _, by decide, fun q => routeById_routed (s := s.withPayload q) hro⟩
  · exact ⟨.unknownType, _, by decide, fun q => routeById_unknown (s := s.withPayload q) hid⟩

/-- The same of `DISP` on every readable payload, with or without a header. -/
theorem execDisp_of_not_peeked (h6 : s.regs.msgId ≠ 6) (h8 : s.regs.msgId ≠ 8) :
    ∃ st f, st ≠ .insufficientBits ∧
      ∀ q, readable q → exec .disp (s.withPayload q) = respond st f (s.withPayload q) := by
  cases hv : s.regs.hv with
  | false => exact ⟨.noHeader, _, by decide, fun q _ => execDisp_noHeader (s := s.withPayload q) hv⟩
  | true =>
    obtain ⟨st, f, hst, hw⟩ := routeById_of_not_peeked h6 h8
    exact ⟨st, f, hst, fun q hq => (execDisp_routeById (s := s.withPayload q) hv hq).trans (hw q)⟩

end

/-- Settles O46: the ids that are not peeked have one verdict for every readable payload. -/
theorem dispReadsPayloadForTwoIdsOnly : Obligations.DispReadsPayloadForTwoIdsOnly := by
  refine fun s t q h6 h8 hr hq => ⟨dispReads_of_not_peeked h6 h8, fun h => ?_⟩
  obtain ⟨st, f, hst, hw⟩ := execDisp_of_not_peeked h6 h8
  have hs : exec .disp s = respond st f s := hw s.pins.payload hr
  refine ⟨?_, EndsSufficient.status_ne ⟨st, f, hst, hs⟩ h⟩
  obtain rfl := respond_inv (hs.symm.trans h)
  exact hw q hq

end Sys2Proof.Machine
end

section
/-! `FVAL` (42_field_validate.md): what a readable, in-bounds field answers is said once, over the predicate of its kind (R100), and
each kind's statement is that law at its own predicate (R101 to R109). A command that reaches past U has one answer for every kind. -/

namespace Sys2Proof.Machine

/-! ### The word and the shown field -/

/-- A word of R73's formula decodes by its kind. -/
theorem decode_fvalWordOf (kind : BitVec 4) (sx : Bool) (off : BitVec 12) (wm1 : Six) (k : KOperand) :
    decode ⟨fvalWordOf kind sx off wm1, k⟩ = decodeFval kind.toNat sx off wm1 k := by
  rw [fvalWordOf_eq_wordF, decode_wordF]

/-- The K bits of FLAG determine its two operands, whatever the other K bits are (R67). -/
theorem flagOperands_of_toNat_mod {k : KOperand} {foff : BitVec 12} {pol : Bool}
    (h : k.toNat % 2 ^ 13 = foff.toNat + pol.toNat * 2 ^ 12) : kFlagOffset k = foff ∧ kFlagPolarity k = pol := by
  have hk : flagK (kFlagOffset k) (kFlagPolarity k) = flagK foff pol :=
    BitVec.eq_of_toNat_eq (by rw [flagK_fields_toNat, flagK_toNat, h, Nat.add_comm])
  constructor
  · simpa using congrArg kFlagOffset hk
  · simpa using congrArg kFlagPolarity hk

/-- The two signed readings of a field agree (00_scope.md R14). -/
theorem sext_eq_signedOf {w : Nat} (hw : 1 ≤ w) (raw : Nat) : sext w raw = signedOf w raw := by
  rw [sext_eq hw, signedOf]; push_cast; rfl

theorem extendField_eq_shownField (sx : Bool) {w : Nat} (hw : 1 ≤ w) (raw : Nat) :
    extendField sx w raw = shownField sx w raw := by
  cases sx with
  | false => exact BitVec.ofInt_natCast 64 raw
  | true => exact congrArg to64 (sext_eq_signedOf hw raw)

/-- The all-ones pattern as the largest value of `w` bits (R102). -/
theorem predAllOnes_eq (w raw : Nat) : predAllOnes w raw = ⟨decide (raw + 1 = 2 ^ w), false⟩ := by
  have hpos : 0 < 2 ^ w := Nat.two_pow_pos w
  have hiff : raw = 2 ^ w - 1 ↔ raw + 1 = 2 ^ w := by omega
  exact congrArg (FieldVerdict.mk · false) (decide_eq_decide.mpr hiff)

/-- `FVAL.SABS`'s predicate by the sign bit of the field (R106). -/
theorem predSabs_eq (k : Nat) {w : Nat} (hw : 1 ≤ w) (raw : Nat) :
    predSabs k w raw = ⟨decide ((signedOf w raw).natAbs > k), false⟩ := by
  rw [predSabs, sext_eq_signedOf hw]

/-! ### A field in bounds (R100) -/

section
variable {s : State} {sx : Bool} {off : BitVec 12} {wm1 : Six} {raw reach : Nat} {pred : Nat → FieldVerdict}

/-- A readable field in bounds, and every bit the kind needs besides it, ends with OK and the verdict of the kind's predicate on the
raw value: a missing field shows 0, every other the extended raw value. -/
theorem fvalField_verdict {miss : Prop} [Decidable miss] {special : Bool} (hr : readable s.pins.payload)
    (hb : (off.toNat : Int) + ((wm1.toNat : Int) + 1) ≤ usable s.pins.payload)
    (hreach : (reach : Int) ≤ usable s.pins.payload)
    (hraw : raw = ubits s.pins.payload off.toNat (wm1.toNat + 1)) (hv : pred raw = ⟨decide miss, special⟩) :
    fvalField sx (offsetOf off) (countOf wm1) reach pred s = respond .ok
      (Regs.writeField (if miss then 0 else shownField sx (wm1.toNat + 1) raw) (decide miss) special) s := by
  have hok := fvalField_ok (sx := sx) (off := offsetOf off) (w := countOf wm1) (reach := reach) (pred := pred)
    ((inputStatus_none_iff _).mpr hr) hb (by omega)
  have hlatch : latchField sx (countOf wm1) raw ⟨decide miss, special⟩ =
      Regs.writeField (if miss then 0 else shownField sx (wm1.toNat + 1) raw) (decide miss) special := by
    funext r
    simp [latchField, countOf, extendField_eq_shownField]
  rw [hok, offsetOf, countOf, ← hraw, hv]
  exact congrArg (respond .ok · s) hlatch

/-- The same for a kind that needs no bit besides the field. -/
theorem fvalField_verdict_of_field {miss : Prop} [Decidable miss] {special : Bool} (hr : readable s.pins.payload)
    (hb : (off.toNat : Int) + ((wm1.toNat : Int) + 1) ≤ usable s.pins.payload)
    (hraw : raw = ubits s.pins.payload off.toNat (wm1.toNat + 1)) (hv : pred raw = ⟨decide miss, special⟩) :
    fvalField sx (offsetOf off) (countOf wm1) 0 pred s = respond .ok
      (Regs.writeField (if miss then 0 else shownField sx (wm1.toNat + 1) raw) (decide miss) special) s :=
  fvalField_verdict hr hb (by omega) hraw hv

end

/-- Settles O47: the law of a field in bounds, at the predicate that is never missing. -/
theorem fvalNoneReadsField : Obligations.FvalNoneReadsField := fun sx off wm1 =>
  ⟨decode_fvalWordOf 0x0 sx off wm1, fun _ _ hr hb hraw =>
    fvalField_verdict_of_field (miss := False) (pred := fun _ => predNone) hr hb hraw rfl⟩

/-- Settles O48: the law of a field in bounds, at the predicate of the all-ones pattern. -/
theorem fvalAllOnesSentinel : Obligations.FvalAllOnesSentinel := fun sx off wm1 =>
  ⟨decode_fvalWordOf 0x1 sx off wm1, fun _ raw hr hb hraw =>
    fvalField_verdict_of_field hr hb hraw (predAllOnes_eq _ raw)⟩

/-- Settles O49: the law of a field in bounds, at the predicate `raw = K`. -/
theorem fvalEqSentinel : Obligations.FvalEqSentinel := fun sx off wm1 k =>
  ⟨decode_fvalWordOf 0x2 sx off wm1 k, fun _ _ hr hb hraw => fvalField_verdict_of_field hr hb hraw rfl⟩

/-- Settles O50: the law of a field in bounds, at the predicate `raw >= K`. -/
theorem fvalGeSentinel : Obligations.FvalGeSentinel := fun sx off wm1 k =>
  ⟨decode_fvalWordOf 0x3 sx off wm1 k, fun _ _ hr hb hraw => fvalField_verdict_of_field hr hb hraw rfl⟩

/-- Settles O51: the law of a field in bounds, at the predicate `raw > K`. -/
theorem fvalGtSentinel : Obligations.FvalGtSentinel := fun sx off wm1 k =>
  ⟨decode_fvalWordOf 0x4 sx off wm1 k, fun _ _ hr hb hraw => fvalField_verdict_of_field hr hb hraw rfl⟩

/-- Settles O52: the law of a field in bounds, at the predicate on the absolute value. -/
theorem fvalSabsBound : Obligations.FvalSabsBound := fun sx off wm1 k =>
  ⟨decode_fvalWordOf 0x5 sx off wm1 k, fun _ raw hr hb hraw =>
    fvalField_verdict_of_field hr hb hraw (predSabs_eq _ (countOf_bounds wm1).1 raw)⟩

/-- Settles O53: the law of a field in bounds, at the predicate that is special at or above K and never missing. -/
theorem fvalSpecialBand : Obligations.FvalSpecialBand := fun sx off wm1 k =>
  ⟨decode_fvalWordOf 0x6 sx off wm1 k, fun _ _ hr hb hraw =>
    fvalField_verdict_of_field (miss := False) hr hb hraw rfl⟩

/-! ### A command that reaches past U (R100, 20_memory.md R48) -/

/-- A field or a flag bit that ends above U makes the failure writes. -/
theorem fvalField_insufficient {s : State} {sx : Bool} {off w reach : Nat} {pred : Nat → FieldVerdict}
    (hr : readable s.pins.payload) (h : usable s.pins.payload < (max (off + w) reach : Nat)) :
    fvalField sx off w reach pred s = respond .insufficientBits Regs.clearField s := by
  have hin := (inputStatus_none_iff _).mpr hr
  by_cases hb : inBounds s.pins.payload off w
  · exact fvalField_flagOutOfBounds hin hb (by omega)
  · exact fvalField_outOfBounds hin hb

/-- An `FVAL` of any kind that needs a bit at or past U makes the failure writes. -/
theorem exec_fval_insufficient {i : Instr} {s : State} (hi : isFval i = true) (hr : readable s.pins.payload)
    (h : usable s.pins.payload < (fvalReach i : Int)) : exec i s = respond .insufficientBits Regs.clearField s := by
  cases i with
  | nop | hdr | disp => cases hi
  | fvalNone => exact fvalField_insufficient (reach := 0) (pred := fun _ => predNone) hr (by rwa [Nat.max_zero])
  | fvalAllOnes | fvalEq | fvalGe | fvalGt | fvalSabs | fvalSpecial =>
    exact fvalField_insufficient (reach := 0) hr (by rwa [Nat.max_zero])
  | fvalFlag _ _ _ foff pol =>
    exact fvalField_insufficient (pred := fun _ => predFlag (pbit s.pins.payload (offsetOf foff)) pol) hr h
  | fvalText => exact fvalChars_outOfBounds ((inputStatus_none_iff _).mpr hr) (Int.not_le.mpr h)

/-- Settles O56: the failure writes of a command that needs a bit at or past U. -/
theorem fvalOutOfBounds : Obligations.FvalOutOfBounds := fun _ _ hi hr h => exec_fval_insufficient hi hr h

/-- Settles O54: by whether the flag bit is usable; in bounds it is the law of a field, at the predicate on the flag bit. -/
theorem fvalFlagBit : Obligations.FvalFlagBit := by
  intro sx off wm1 foff pol s raw hr hb hraw
  refine ⟨fun k hk => ?_, fun hf => ?_, fun hf => ?_⟩
  · obtain ⟨rfl, rfl⟩ := flagOperands_of_toNat_mod hk
    exact decode_fvalWordOf 0x7 sx off wm1 k
  · exact fvalField_verdict (reach := offsetOf foff + 1)
      (pred := fun _ => predFlag (pbit s.pins.payload (offsetOf foff)) pol) hr hb (by simpa [offsetOf] using hf) hraw rfl
  · exact exec_fval_insufficient rfl hr (by simp only [fvalReach]; omega)

/-! ### Text (R109) -/

/-- The padding test in the form of R109. -/
theorem allPadding_eq_decide (p : Payload) (c : Six) (off n : Nat) :
    allPadding p c off n = decide (∀ j ∈ List.range n, ubits p (off + 6 * j) 6 = c.toNat) := by
  rw [Bool.eq_iff_iff, allPadding_iff, decide_eq_true_iff]
  simp only [List.mem_range]

/-- Settles O55: the text is in bounds, and its padding test goes character by character. -/
theorem fvalTextAllPadding : Obligations.FvalTextAllPadding := by
  refine fun sx off wm1 => ⟨decode_fvalWordOf 0x8 sx off wm1, ?_⟩
  rintro s n rfl hr hb
  rw [← allPadding_eq_decide]
  exact fvalChars_ok ((inputStatus_none_iff _).mpr hr) hb

/-! ### A missing verdict (R110) -/

/-- What an `FVAL` can end with: one of its three failures with the failure writes, or OK with a verdict. -/
def FailsOrAnswers (s : State) (x : Host.Outcome State Fault Refusal) : Prop :=
  (∃ st, (st = .padRange ∨ st = .badNmeaChar ∨ st = .insufficientBits) ∧ x = respond st Regs.clearField s) ∨
  (∃ v m sp, x = respond .ok (Regs.writeField v m sp) s)

theorem fvalField_failsOrAnswers (sx : Bool) (off w reach : Nat) (pred : Nat → FieldVerdict) (s : State) :
    FailsOrAnswers s (fvalField sx off w reach pred s) :=
  (fvalField_cases sx off w reach pred s).imp_right fun ⟨_, _, _, he⟩ => ⟨_, _, _, he⟩

theorem fvalChars_failsOrAnswers (off n : Nat) (s : State) : FailsOrAnswers s (fvalChars off n s) :=
  (fvalChars_cases off n s).imp_right fun ⟨_, _, he⟩ => ⟨_, _, _, he⟩

theorem exec_fval_failsOrAnswers {i : Instr} (hi : isFval i = true) (s : State) : FailsOrAnswers s (exec i s) := by
  cases i with
  | nop | hdr | disp => cases hi
  | fvalNone => exact fvalField_failsOrAnswers (pred := fun _ => predNone) ..
  | fvalAllOnes | fvalEq | fvalGe | fvalGt | fvalSabs | fvalSpecial => exact fvalField_failsOrAnswers ..
  | fvalFlag _ _ _ foff pol =>
    exact fvalField_failsOrAnswers (pred := fun _ => predFlag (pbit s.pins.payload (offsetOf foff)) pol) ..
  | fvalText => exact fvalChars_failsOrAnswers ..

/-- Only a command that ends with OK leaves a missing verdict. -/
theorem status_ok_of_fmiss {i : Instr} {s t : State} (hi : isFval i = true) (h : exec i s = .next t)
    (hm : t.regs.fmiss = true) : t.regs.status = 0x0 := by
  rcases exec_fval_failsOrAnswers hi s with ⟨st, -, he⟩ | ⟨v, m, sp, he⟩
  · obtain rfl := respond_inv (he.symm.trans h)
    cases hm
  · obtain rfl := respond_inv (he.symm.trans h)
    rfl

/-- Settles O58: a missing verdict comes with OK, and an `FVAL` writes no register but the field registers, STATUS and RSP_VALID. -/
theorem missingAbortsNothing : Obligations.MissingAbortsNothing := by
  intro i s t hi h hm
  have hst := status_ok_of_fmiss hi h hm
  obtain ⟨st, v, m, sp, he, -, hz⟩ := exec_fval_result hi s
  obtain rfl := respond_inv (he.symm.trans h)
  obtain ⟨hv, hsp⟩ := hz hm
  exact ⟨hst, hv, hsp, ⟨rfl, rfl, rfl, rfl⟩, ⟨rfl, rfl, rfl, rfl, rfl⟩⟩

end Sys2Proof.Machine
end

section
/-! `NOP` and the illegal command (43_control.md): each is a completion without result writes, from every state and without a
look at the payload inputs. -/

namespace Sys2Proof.Machine

/-- What `NOP` answers (R120). -/
theorem exec_nop (s : State) : exec .nop s = .next { s with regs := s.regs.complete .ok } := respond_eq .ok id s

/-- What the illegal command answers (R121). -/
theorem execIllegal_eq (s : State) : execIllegal s = .next { s with regs := s.regs.complete .illegalCmd } :=
  respond_eq .illegalCmd id s

/-- The edge that accepts an illegal command (R121, R154). -/
theorem step_illegal_eq {s : State} (hr : s.pins.rst = false) (hv : s.pins.cmdValid = true)
    (hd : decode s.pins.cmd = none) : step s = .next (State.advance { s with regs := s.regs.complete .illegalCmd }) :=
  (step_illegal hr hv hd).trans (congrArg advanced (execIllegal_eq s))

/-- Settles O12: another payload on the inputs leaves an illegal command illegal and accepted, and moving the inputs on changes
neither the registers nor the configuration. -/
theorem illegalCommandWritesStatusOnly : Obligations.IllegalCommandWritesStatusOnly := fun s q hr hv hd =>
  ⟨_, step_illegal_eq (s := s.withPayload q) hr hv hd, State.advance_cfg _, State.advance_regs _⟩

/-- Settles O31: the word by the decoder's case of `NOP`, the state by R120's law. -/
theorem nopWritesStatusOnly : Obligations.NopWritesStatusOnly := ⟨decode_nop, exec_nop⟩

end Sys2Proof.Machine
end

section
/-! Completion, status and result (60_exceptions.md): every command and every edge answers a next state (R134), its status is the
first that applies in the operation's order of checks (R133), and a hard status leaves the failure values, a soft one a valid
result (R131). -/

namespace Sys2Proof.Machine

/-! ### Every command and every edge completes (R134) -/

theorem advanced_next (s : State) : advanced (.next s) = .next s.advance := rfl

/-- Settles O16: a command changes registers only, and around it an edge moves the inputs on. -/
theorem everyCommandAndEdgeCompletes : Obligations.EveryCommandAndEdgeCompletes := by
  have completes (i : Instr) (s : State) : ∃ t, exec i s = .next t :=
    let ⟨_, h⟩ := exec_next_withRegs i s
    ⟨_, h⟩
  refine ⟨completes, fun s => ?_⟩
  rcases step_cases s with ⟨-, he⟩ | ⟨i, -, -, -, he⟩ | ⟨-, -, -, he⟩ | ⟨-, -, he⟩
  · exact ⟨_, he⟩
  · obtain ⟨t, ht⟩ := completes i s
    rw [ht, advanced_next] at he
    exact ⟨_, he⟩
  · rw [execIllegal_eq, advanced_next] at he
    exact ⟨_, he⟩
  · exact ⟨_, he⟩

/-! ### The order of the checks (R133) -/

/-- The outcome `x` is a next state with the status code `code`. -/
def AnswersStatus (x : Host.Outcome State Fault Refusal) (code : BitVec 4) : Prop := ∃ t, x = .next t ∧ t.regs.status = code

theorem answersStatus_of_respond {x : Host.Outcome State Fault Refusal} {st : Status} {f : Regs → Regs} {s : State}
    (h : x = respond st f s) : AnswersStatus x st.code := ⟨_, h, rfl⟩

/-- The two checks that `HDR`, `DISP` and `FVAL` share: PAD_RANGE, then BAD_NMEA_CHAR, then what follows them. -/
theorem answersStatus_of_inputChecks {x : Host.Outcome State Fault Refusal} {p : Payload} {code : BitVec 4}
    (hfail : ∀ st, inputStatus p = some st → AnswersStatus x st.code) (hpass : inputStatus p = none → AnswersStatus x code) :
    AnswersStatus x (if 6 ≤ p.padBits.toNat then 0xB else if p.armorErr = true then 0xA else code) := by
  split
  · next hpad => exact hfail .padRange (inputStatus_pad hpad)
  · next hpad =>
    have hle : p.padBits.toNat ≤ 5 := Nat.le_of_lt_succ (Nat.not_le.mp hpad)
    split
    · next ha => exact hfail .badNmeaChar (inputStatus_armor hle ha)
    · next ha => exact hpass ((inputStatus_none_iff p).mpr ⟨hle, Bool.not_eq_true _ ▸ ha⟩)

section
variable (s : State)

theorem execHdr_status : AnswersStatus (execHdr s) (hdrPriority s) := by
  refine answersStatus_of_inputChecks (fun st h => answersStatus_of_respond (execHdr_unreadable h)) fun h => ?_
  split
  · next hl => exact answersStatus_of_respond (execHdr_short h hl)
  · next hl => exact answersStatus_of_respond (execHdr_ok h hl)

/-- An `FVAL` of a kind other than TEXT, which needs its field and `reach` bits below U. -/
theorem fvalField_status {i : Instr} {sx : Bool} {off w reach : Nat} {pred : Nat → FieldVerdict}
    (hn : fvalReach i = max (off + w) reach) : AnswersStatus (fvalField sx off w reach pred s) (fvalPriority i s) := by
  refine answersStatus_of_inputChecks (fun st h => answersStatus_of_respond (fvalField_unreadable h)) fun h => ?_
  rw [hn]
  split
  · next hU => exact answersStatus_of_respond (fvalField_insufficient ((inputStatus_none_iff _).mp h) hU)
  · next hU => exact answersStatus_of_respond (fvalField_ok h (by simp only [inBounds]; omega) (by omega))

theorem fvalChars_status {i : Instr} {off n : Nat} (hn : fvalReach i = off + 6 * n) :
    AnswersStatus (fvalChars off n s) (fvalPriority i s) := by
  refine answersStatus_of_inputChecks (fun st h => answersStatus_of_respond (fvalChars_unreadable h)) fun h => ?_
  rw [hn]
  split
  · next hU => exact answersStatus_of_respond (fvalChars_outOfBounds h (Int.not_le.mpr hU))
  · next hU => exact answersStatus_of_respond (fvalChars_ok h (Int.not_lt.mp hU))

/-- The pair that the payload holds at `base` is the peeked one, so an entry equals it exactly when the peek is in the table. -/
theorem exists_peeks_iff (p : Payload) (base : Nat) (table : List SubType) :
    (∃ e ∈ table, peeks p base e) ↔ peek p base ∈ table := by
  constructor
  · rintro ⟨e, he, hp⟩
    rwa [peek_eq_of_peeks hp]
  · exact fun h => ⟨_, h, (Nat.mod_eq_of_lt (ubits_lt p base 10)).symm, (Nat.mod_eq_of_lt (ubits_lt p (base + 10) 6)).symm⟩

theorem peekRoute_status (base : Nat) (table : List SubType) (known common : Route) :
    AnswersStatus (peekRoute base table known common s) (peekPriority base table s) := by
  simp only [peekPriority, exists_peeks_iff]
  rcases peekRoute_cases base table known common s with ⟨hb, he⟩ | ⟨n, hb, hn, he⟩ | ⟨hb, hno, he⟩
  · have hshort : usable s.pins.payload < (base : Int) + 16 := Int.not_le.mp hb
    rw [if_pos hshort]
    exact answersStatus_of_respond he
  · have hlong : ¬ usable s.pins.payload < (base : Int) + 16 := Int.not_lt.mpr hb
    rw [if_neg hlong, if_pos (List.mem_of_getElem? (subIndex_some hn).1)]
    exact answersStatus_of_respond he
  · have hlong : ¬ usable s.pins.payload < (base : Int) + 16 := Int.not_lt.mpr hb
    rw [if_neg hlong, if_neg hno]
    exact answersStatus_of_respond he

theorem execDisp_status : AnswersStatus (execDisp s) (dispPriority s) := by
  unfold dispPriority
  split
  · next hv => exact answersStatus_of_respond (execDisp_noHeader hv)
  next hv =>
  rw [Bool.not_eq_false] at hv
  refine answersStatus_of_inputChecks (fun st h => answersStatus_of_respond (execDisp_unreadable hv h)) fun h => ?_
  rw [execDisp_readable hv h]
  split
  · next h6 => rw [routeById_six h6]; exact peekRoute_status ..
  next h6 =>
  split
  · next h8 => rw [routeById_eight h8]; exact peekRoute_status ..
  next h8 =>
  split
  · next hun => exact answersStatus_of_respond (routeById_unsupported hun)
  next hun =>
  split
  · next hid => exact answersStatus_of_respond (routeById_unknown hid)
  next hid =>
  obtain ⟨ro, hro⟩ : ∃ ro, routeTable s.regs.msgId.toNat = some ro :=
    ((((messageId_class _).resolve_left h6).resolve_left h8).resolve_left hun).resolve_right hid
  exact answersStatus_of_respond (routeById_routed hro)

/-- The status of every command is the first that applies in its operation's order. -/
theorem exec_status (i : Instr) : AnswersStatus (exec i s) (statusPriority i s) := by
  cases i with
  | nop => exact ⟨_, exec_nop s, rfl⟩
  | hdr => exact execHdr_status s
  | disp => exact execDisp_status s
  | fvalNone => exact fvalField_status s (pred := fun _ => predNone) (Nat.max_zero _).symm
  | fvalAllOnes | fvalEq | fvalGe | fvalGt | fvalSabs | fvalSpecial => exact fvalField_status s (Nat.max_zero _).symm
  | fvalFlag _ _ _ foff pol =>
    exact fvalField_status s (pred := fun _ => predFlag (pbit s.pins.payload (offsetOf foff)) pol) rfl
  | fvalText => exact fvalChars_status s rfl

end

/-- Settles O29: the commands by their checks in order, the illegal command by R121's law, which looks at no input. -/
theorem statusFollowsPriority : Obligations.StatusFollowsPriority :=
  ⟨fun i s => exec_status s i, fun _ hr hv hd =>
    ⟨_, step_illegal_eq hr hv hd, congrArg Regs.status (State.advance_regs _)⟩⟩

/-! ### Hard and soft statuses (R131) -/

/-- The failures that `HDR`, `DISP` and `FVAL` share are hard. -/
theorem hard_of_failure {st : Status} (h : st = .padRange ∨ st = .badNmeaChar ∨ st = .insufficientBits) :
    st.code.getLsbD 3 = true := by
  rcases h with rfl | rfl | rfl <;> rfl

/-- What `DISP` can end with: a hard status and no verdict, with the UNSUPPORTED route for UNSUPPORTED_TYPE alone, or a soft status
and a verdict with a route (41_dispatch.md R85, R91). -/
def DispFailsOrRoutes (s : State) (x : Host.Outcome State Fault Refusal) : Prop :=
  (∃ st ro, st.code.getLsbD 3 = true ∧ ro.code = (if st.code = 0x8 then 0x0D else 0x00) ∧
    x = respond st (Regs.writeDispatch false ro 0 0 0) s) ∨
  (∃ st ro n d f, st.code.getLsbD 3 = false ∧ ro.code ≠ 0x00 ∧ x = respond st (Regs.writeDispatch true ro n d f) s)

section
variable {s t : State}

theorem peekRoute_failsOrRoutes (base : Nat) (table : List SubType) {known common : Route} (hk : known.code ≠ 0x00)
    (hc : common.code ≠ 0x00) : DispFailsOrRoutes s (peekRoute base table known common s) := by
  rcases peekRoute_cases base table known common s with ⟨-, he⟩ | ⟨n, -, -, he⟩ | ⟨-, -, he⟩
  · exact .inl ⟨.insufficientBits, .none, rfl, rfl, he⟩
  · exact .inr ⟨.ok, known, _, _, _, rfl, hk, he⟩
  · exact .inr ⟨.unknownSubtype, common, _, _, _, rfl, hc, he⟩

theorem routeById_failsOrRoutes : DispFailsOrRoutes s (routeById s) := by
  rcases messageId_class s.regs.msgId with hid | hid | hid | ⟨ro, hro⟩ | hid
  · rw [routeById_six hid]
    exact peekRoute_failsOrRoutes _ _ (by decide) (by decide)
  · rw [routeById_eight hid]
    exact peekRoute_failsOrRoutes _ _ (by decide) (by decide)
  · exact .inl ⟨.unsupportedType, .unsupported, rfl, rfl, routeById_unsupported hid⟩
  · have hused : UsedRoute ro.code := usedRoute_of_mem_routedIds (mem_routedIds_of_routeTable hro)
    exact .inr ⟨.ok, ro, _, _, _, rfl, hused.1, routeById_routed hro⟩
  · exact .inr ⟨.unknownType, .unknown, _, _, _, rfl, by decide, routeById_unknown hid⟩

theorem execDisp_failsOrRoutes : DispFailsOrRoutes s (execDisp s) := by
  rcases execDisp_cases s with ⟨-, he⟩ | ⟨st, -, hst, he⟩ | ⟨-, -, he⟩
  · exact .inl ⟨.noHeader, .none, rfl, rfl, he⟩
  · exact .inl ⟨st, .none, hard_of_failure (hst.imp_right .inl), by rcases hst with rfl | rfl <;> rfl, he⟩
  · rw [he]
    exact routeById_failsOrRoutes

/-- `HDR` ends hard with cleared header and dispatch registers, or with OK and a valid header. -/
theorem hdr_hard_or_valid (h : exec .hdr s = .next t) :
    (t.regs.status.getLsbD 3 = true ∧ t.regs.hv = false ∧ t.regs.msgId = 0 ∧ t.regs.repeatInd = 0 ∧ t.regs.mmsi = 0 ∧
      dispatchCleared 0x00 t.regs) ∨
    (t.regs.status = 0x0 ∧ t.regs.hv = true) := by
  rcases execHdr_cases s with ⟨st, hst, he⟩ | ⟨-, -, he⟩
  · obtain rfl := respond_inv (he.symm.trans h)
    exact .inl ⟨hard_of_failure hst, rfl, rfl, rfl, rfl, rfl, rfl, rfl, rfl, rfl⟩
  · obtain rfl := respond_inv (he.symm.trans h)
    exact .inr ⟨rfl, rfl⟩

/-- `DISP` ends hard with no verdict, or soft with a verdict. -/
theorem disp_hard_or_valid (h : exec .disp s = .next t) :
    (t.regs.status.getLsbD 3 = true ∧ dispatchCleared (if t.regs.status = 0x8 then 0x0D else 0x00) t.regs) ∨
    (t.regs.status.getLsbD 3 = false ∧ t.regs.dv = true ∧ t.regs.route ≠ 0x00) := by
  rcases execDisp_failsOrRoutes with ⟨st, ro, hhard, hro, he⟩ | ⟨st, ro, n, d, f, hsoft, hro, he⟩
  · obtain rfl := respond_inv (he.symm.trans h)
    exact .inl ⟨hhard, rfl, hro, rfl, rfl, rfl⟩
  · obtain rfl := respond_inv (he.symm.trans h)
    exact .inr ⟨hsoft, rfl, hro⟩

/-- `FVAL` ends hard with cleared field registers, or with OK. -/
theorem fval_hard_or_ok {i : Instr} (hi : isFval i = true) (h : exec i s = .next t) :
    (t.regs.status.getLsbD 3 = true ∧ t.regs.fvalue = 0 ∧ t.regs.fmiss = false ∧ t.regs.fspec = false) ∨
    t.regs.status = 0x0 := by
  rcases exec_fval_failsOrAnswers hi s with ⟨st, hst, he⟩ | ⟨v, m, sp, he⟩
  · obtain rfl := respond_inv (he.symm.trans h)
    exact .inl ⟨hard_of_failure hst, rfl, rfl, rfl⟩
  · obtain rfl := respond_inv (he.symm.trans h)
    exact .inr rfl

end

/-- Settles O30: by command, from the hard and the soft way it can end. -/
theorem hardStatusLeavesFailureValues : Obligations.HardStatusLeavesFailureValues := by
  intro i s t h
  rw [← and_assoc]
  refine ⟨?_, fun hi => status_ok_of_fmiss hi h⟩
  rcases nop_or_hdr_or_disp_or_isFval i with rfl | rfl | rfl | hi
  · obtain rfl := respond_inv h
    simp [isFval, Status.code]
  · rcases hdr_hard_or_valid h with ⟨hhard, hcleared⟩ | ⟨hok, hhv⟩
    · simpa [hhard, isFval] using hcleared
    · simp [hok, hhv]
  · rcases disp_hard_or_valid h with ⟨hhard, hcleared⟩ | ⟨hsoft, hverdict⟩
    · simpa [hhard, isFval] using hcleared
    · rw [hsoft]
      simpa [isFval] using hverdict
  · have hne : i ≠ .hdr ∧ i ≠ .disp := by constructor <;> rintro rfl <;> cases hi
    rcases fval_hard_or_ok hi h with ⟨hhard, hcleared⟩ | hok
    · simpa [hhard, hne] using fun _ => hcleared
    · simp [hok, hne]

end Sys2Proof.Machine
end

section
/-! Reset, edges and hazards (70_reset_and_hazards.md): an accepted edge is its command with the inputs moved on, RSP_VALID marks
exactly these edges (R156), and a `DISP` at the edge after its `HDR` works on the latched header (R159). -/

namespace Sys2Proof.Machine

/-! ### Reset and idle edges (R150, R151, R157) -/

/-- Settles O13: the reset values are those of `Regs.reset`, and moving the inputs on changes no register. -/
theorem resetEdgeResetsEveryRegister : Obligations.ResetEdgeResetsEveryRegister := fun _ hr =>
  ⟨_, step_reset hr, State.advance_cfg _, State.advance_regs _⟩

/-- Settles O14: an idle edge is `State.idleRegs` with the inputs moved on. -/
theorem idleEdgeHoldsRegisters : Obligations.IdleEdgeHoldsRegisters := fun _ hr hv =>
  ⟨_, step_idle hr hv, State.advance_regs _, State.advance_cfg _⟩

/-- Settles O18: register by register, R151's table. -/
theorem resetStateRegisters : Obligations.ResetStateRegisters :=
  ⟨rfl, rfl, rfl, rfl, rfl, rfl, rfl, rfl, rfl, rfl, rfl, rfl, rfl, rfl⟩

/-- Settles O19: the example tables are admissible, the resting inputs carry an empty payload, and the reset registers are
consistent in every configuration. -/
theorem resetStateMeetsInvariant : Obligations.ResetStateMeetsInvariant :=
  ⟨by decide, by decide, List.forall_mem_nil _, Regs.reset_consistent _⟩

/-! ### Accepted edges (R154 to R156) -/

section
variable {s t : State} {i : Instr}

/-- The edge that accepts a legal command leaves what the command answers, with the inputs moved on. -/
theorem step_of_exec (hr : s.pins.rst = false) (hv : s.pins.cmdValid = true) (hd : decode s.pins.cmd = some i)
    (h : exec i s = .next t) : step s = .next t.advance := by
  rw [step_command hr hv hd, h, advanced_next]

theorem exec_rspValid (h : exec i s = .next t) : t.regs.rspValid = true := by
  obtain ⟨u, hu, -, -, -, -, hrsp, -⟩ := writeMatrixFrame.1 i s
  obtain rfl := Host.Outcome.next.inj (hu.symm.trans h)
  exact hrsp

end

/-- Settles O10: the command changes registers only, so the inputs that move on are those of the state before the edge. -/
theorem stepRunsTheDecodedCommand : Obligations.StepRunsTheDecodedCommand := by
  intro s i hr hv hd
  obtain ⟨r, he⟩ := exec_next_withRegs i s
  exact ⟨_, _, he, step_of_exec hr hv hd he, State.advance_regs _, State.advance_cfg _,
    fun hl => ⟨State.advance_pins_nil _ hl, State.advance_later_nil _ hl⟩,
    fun _ _ hl => ⟨State.advance_pins_cons _ hl, State.advance_later_cons _ hl⟩⟩

/-- Settles O11: presenting the word gives an edge that accepts the command it decodes to. -/
theorem presentedWordRunsNext : Obligations.PresentedWordRunsNext := by
  intro s nbits w i hd
  obtain ⟨t, u, ht, hu, hregs, -⟩ := stepRunsTheDecodedCommand (s.withFetchWord nbits w) i rfl rfl hd
  exact ⟨t, u, ht, hu, hregs, rfl, rfl⟩

/-- Settles O15: by the kind of edge; every command makes the pulse, an illegal one too, a reset and an idle edge clear it. -/
theorem rspValidMarksAcceptedEdges : Obligations.RspValidMarksAcceptedEdges := by
  intro s t h
  rcases step_cases s with ⟨hr, he⟩ | ⟨i, hr, hv, hd, -⟩ | ⟨hr, hv, hd, -⟩ | ⟨hr, hv, he⟩
  · obtain rfl := Host.Outcome.next.inj (he.symm.trans h)
    simp [hr, Regs.reset]
  · obtain ⟨u, hu⟩ := everyCommandAndEdgeCompletes.1 i s
    obtain rfl := Host.Outcome.next.inj ((step_of_exec hr hv hd hu).symm.trans h)
    simp [hr, hv, hd, exec_rspValid hu, hu]
  · obtain rfl := Host.Outcome.next.inj ((step_illegal_eq hr hv hd).symm.trans h)
    simp [hr, hv, hd]
  · obtain rfl := Host.Outcome.next.inj (he.symm.trans h)
    simp [hv]

/-! ### `HDR` and the `DISP` after it (R155, R159) -/

section
variable {s : State}

/-- With a header the first check of `DISP` passes, and no later one raises NO_HEADER (R133). -/
theorem dispPriority_ne_noHeader (hv : s.regs.hv = true) : dispPriority s ≠ 0xC := by
  rw [dispPriority, if_neg (by simp [hv])]
  unfold peekPriority
  split_ifs <;> decide

/-- `DISP` with a header ends without NO_HEADER and keeps the header, and gives a routed id its route (41_dispatch.md R85). -/
theorem execDisp_with_header (hv : s.regs.hv = true) :
    ∃ t, exec .disp s = .next t ∧ t.regs.status ≠ 0xC ∧ sameHeader s.regs t.regs ∧
      (readable s.pins.payload → ∀ code, (s.regs.msgId.toNat, code) ∈ routedIds → t.regs.route = code ∧ t.regs.dv = true) := by
  obtain ⟨st, dv, ro, n, d, f, he, -⟩ := execDisp_result s
  obtain ⟨t, ht, hst⟩ := execDisp_status s
  obtain rfl := respond_inv (he.symm.trans ht)
  refine ⟨_, he, hst ▸ dispPriority_ne_noHeader hv, ⟨rfl, rfl, rfl, rfl⟩, fun hr code hid => ?_⟩
  rw [Host.Outcome.next.inj (ht.symm.trans (dispRoutesCatalogIds.2 s code hv hr hid))]
  exact ⟨rfl, rfl⟩

/-- The edge that accepts `HDR` on a payload that holds a header latches it (40_header.md R80) and moves on to the host's next
inputs. -/
theorem step_hdr_latches (hr : s.pins.rst = false) (hv : s.pins.cmdValid = true) (hw : s.pins.cmd.word = 0x10000000)
    (h : s.pins.payload.HoldsHeader) :
    ∃ t, step s = .next t ∧ t.regs = (latchHeader s.pins.payload s.regs).complete .ok ∧
      ∀ p ps, s.later = p :: ps → t.pins = p := by
  have hd : decode s.pins.cmd = some .hdr := by rw [← decode_hdr s.pins.cmd.k, ← hw]
  exact ⟨_, step_of_exec hr hv hd (execHdr_of_holdsHeader h), State.advance_regs _, fun _ _ hl => State.advance_pins_cons _ hl⟩

end

/-- Settles O21: the first edge latches the header and moves on to the second edge's inputs, where `DISP` works on these registers
and keeps the header. -/
theorem dispRightAfterHdrSeesHeader : Obligations.DispRightAfterHdrSeesHeader := by
  intro s p ps hr hv hw hread h38 hl hpr hpv hpw
  have hheader : s.pins.payload.HoldsHeader := ⟨hread, (hdrLengthEdges s hread.2).1 hread.1 h38, h38⟩
  obtain ⟨t, ht, hregs, hpins⟩ := step_hdr_latches hr hv hw hheader
  obtain rfl := hpins p ps hl
  have hd : decode t.pins.cmd = some .disp := by rw [← decode_disp t.pins.cmd.k, ← hpw]
  have hhv : t.regs.hv = true := by rw [hregs]; rfl
  have hmsgId : t.regs.msgId.toNat = ubits s.pins.payload 0 6 := by rw [hregs]; exact latchHeader_msgId_toNat _ s.regs
  have hmmsi : t.regs.mmsi.toNat = ubits s.pins.payload 8 30 := by rw [hregs]; exact latchHeader_mmsi_toNat _ s.regs
  obtain ⟨u, hu, hst, ⟨hhv', hid', -, hmmsi'⟩, hroute⟩ := execDisp_with_header hhv
  refine ⟨t, u.advance, ht, step_of_exec hpr hpv hd hu, by rw [hregs]; rfl, ?_⟩
  rw [State.advance_regs, hhv', hid', hmmsi', hmsgId]
  exact ⟨exec_rspValid hu, hhv, hst, rfl, hmmsi, hmsgId ▸ hroute⟩

end Sys2Proof.Machine
end

section
/-! The words listed in 95_test_vectors.md: a legal one is the encoding of the instruction it is listed with, an illegal one has
one of the grounds of R69. -/

namespace Sys2Proof

/-- The command an instruction encodes to decodes to that instruction. -/
theorem decode_of_encode_eq {c : Command} {i : Instr} (h : encode i = c) : decode c = some i := by
  rw [← h, decodeOfEncodeIsIdentity i]

/-- A set reserved bit makes an `FVAL` word illegal (R69). -/
theorem decode_eq_none_of_fReserved {c : Command} (ho : c.word.toNat / 2 ^ 28 = 3) (hr : c.word.toNat / 2 ^ 18 % 32 ≠ 0) :
    decode c = none :=
  (illegalCommandsAreTheReservedOnes.1 c).mpr (.inr (.inr (.inr ⟨ho, hr⟩)))

/-- A reserved kind makes an `FVAL` word illegal (R69). -/
theorem decode_eq_none_of_kind {c : Command} (ho : c.word.toNat / 2 ^ 28 = 3) (hk : 9 ≤ c.word.toNat / 2 ^ 24 % 16) :
    decode c = none :=
  (illegalCommandsAreTheReservedOnes.1 c).mpr (.inr (.inl ⟨ho, hk⟩))

/-- A set operand bit makes a format Z word illegal (R69). -/
theorem decode_eq_none_of_zReserved {c : Command} (ho : c.word.toNat / 2 ^ 28 ≤ 2) (hz : c.word.toNat % 2 ^ 28 ≠ 0) :
    decode c = none :=
  (illegalCommandsAreTheReservedOnes.1 c).mpr (.inr (.inr (.inl ⟨ho, hz⟩)))

/-- Settles O7: the five commands are encodings, and the three words have a set reserved bit, a reserved kind and a set bit of
format Z. -/
theorem listedWordsDecode : Obligations.ListedWordsDecode := by
  refine ⟨decode_of_encode_eq ?ge, decode_of_encode_eq ?sabs, decode_of_encode_eq ?special, decode_of_encode_eq ?flag,
    decode_of_encode_eq ?text, decode_eq_none_of_fReserved ?_ ?_, decode_eq_none_of_kind ?_ ?_,
    decode_eq_none_of_zReserved ?_ ?_⟩
  case ge | sabs | special | flag | text => rfl
  all_goals decide

end Sys2Proof
end
